-- ==== Sys2Proof/Word.lean ====
section
/-! DEFINITION. The word types of the block: bytes, ticks, glyph rows. -/

namespace Sys2Proof

/-- An operand byte, a colour channel, a framebuffer byte, a glyph column (R20, R29, R54, R71). -/
abbrev Byte := BitVec 8

/-- A value of the tick counter: `TICK_BITS` = 32 bits (R7, R25). -/
abbrev Tick := BitVec 32

/-- One row of a digit glyph: five bits (R8, R55). -/
abbrev GlyphRow := BitVec 5

end Sys2Proof
end

