-- ==== Sys2Proof/Config.lean ====
section
/-! DEFINITION. What this hardware fixes (R5 to R9) and the values the spec leaves free. A free value is an opaque constant with no
body: no proof can see what it is, so a statement that mentions it holds whatever it is. -/

namespace Sys2Proof.Config

/-- `W`, the width of the LED matrix (R5). -/
abbrev matrixW : Nat := 5

/-- `H`, the height of the LED matrix (R5). -/
abbrev matrixH : Nat := 5

/-- `N = W·H`, the number of LED pixels (R5). -/
abbrev numPixels : Nat := matrixW * matrixH

/-- `DISP_W`, the width of the display in pixels (R6). -/
abbrev dispW : Nat := 128

/-- `DISP_H`, the height of the display in pixels (R6). -/
abbrev dispH : Nat := 64

/-- `FB_BYTES = DISP_W·DISP_H/8` (R6). -/
abbrev fbBytes : Nat := dispW * dispH / 8

/-- `NUM_INPUTS` (R7). -/
abbrev numInputs : Nat := 2

/-- `DEBOUNCE_MS` (R7). -/
abbrev debounceMs : Nat := 50

/-- `TICKS_PER_MS` (R7). -/
abbrev ticksPerMs : Nat := 1000

/-- `WINDOW = DEBOUNCE_MS·TICKS_PER_MS` ticks (R7). -/
abbrev window : Nat := debounceMs * ticksPerMs

/-- `BIT_RATE_HZ` (R9). Timing only: no value rule depends on it (R219). -/
abbrev bitRateHz : Nat := 800000

/-- `BITS_PER_PIXEL` (R9). -/
abbrev bitsPerPixel : Nat := 24

/-- `LATCH_MIN_US` (R9). Timing only (R219). -/
abbrev latchMinUs : Nat := 50

/-- `LATCH_US` (R9). Timing only (R219). -/
abbrev latchUs : Nat := 100

/-- `QDEPTH`, the depth of the generator's output queue (R9, R110). PRESUMED 4 (log 14): the spec leaves it a parameter that nothing
observable depends on. Safe. -/
abbrev queueDepth : Nat := 4

/-- `DIGIT_ROM[5]`, the one glyph the source gives (R8). -/
def digitFive : Vector GlyphRow 5 := #v[0b11111#5, 0b10000#5, 0b11111#5, 0b00001#5, 0b11111#5]

/-- Byte `c` of `FONT_UPPER[k]`: a parameter with no value in the spec (R8, I13, log 7). Free value, safe. -/
opaque fontUpperByte : Nat → Nat → Byte

/-- Byte `c` of `FONT_LOWER[k]`: a parameter with no value in the spec (R8, I13, log 7). Free value, safe. -/
opaque fontLowerByte : Nat → Nat → Byte

/-- Row `r` of `DIGIT_ROM[d]` for `d ≠ 5`: a parameter with no value in the spec (R8, I13, log 7). Free value, safe. -/
opaque digitRomRow : Nat → Nat → GlyphRow

/-- What byte `a` of the framebuffer reads as before anything has written it since reset number `epoch`: any value (R29, R211, I8,
logs 6 and 8). Free value, safe. -/
opaque powerOnByte : Nat → Nat → Byte

/-- The channels of LED Frame register `i` after reset number `epoch`, before `INIT` zeroes it: channel 0 is r, 1 is g, 2 is b: any
value (R20, R211, I8, log 5). Free value, safe. -/
opaque powerOnColor : Nat → Nat → Nat → Byte

/-- `led_pin` after reset number `epoch`: any value (R24, R211, I8, log 5). Free value, safe. -/
opaque powerOnPin : Nat → Byte

end Sys2Proof.Config
end

