-- ==== Sys2Proof/Machine/State.lean ====
section
/-! DEFINITION. Everything the spec gives the block to hold (10_state.md), the environment's inputs as plain data, the reasons a step
can stop, and the state after reset (R210). -/

namespace Sys2Proof.Machine

/-- `led_mode`, register S0 (R23): whether the emitter has been initialised. The fourth value of its two bits never occurs (log 9). -/
inductive LedMode where
  | uninit | ready | halted
deriving DecidableEq, Repr

/-- A Pixel Color: three 8-bit channels (R20). Which order a register stores them in is not architectural. -/
structure Color where
  r : Byte
  g : Byte
  b : Byte
deriving DecidableEq, Repr

/-- One symbol on the LED data pin (R12, R108, R109). -/
inductive LedSymbol where
  | b0 | b1 | latch
deriving DecidableEq, Repr

/-- The Debounce Gate of one input (R160): `pending` (R22), `last_accepted` (R25) and `prev` (R26). -/
structure Gate where
  pending : Bool
  lastAccepted : Tick
  prev : Bool
deriving DecidableEq, Repr

/-- The two inputs (R7, R185). -/
inductive InputId where
  | in0 | in1
deriving DecidableEq, Repr

/-- The glyph ROMs (R28), read only. -/
structure Rom where
  fontUpper : Vector (Vector Byte 5) 26
  fontLower : Vector (Vector Byte 5) 26
  digits : Vector (Vector GlyphRow 5) 10
deriving DecidableEq, Repr

/-- The framebuffer's bytes (R29), as the bytes written since reset: addresses strictly rising. An address that is not listed has no
value of its own and reads as a free value (log 6). -/
abbrev Memory := List Host.Cell

/-- What the environment does besides presenting records (R13, R33). -/
inductive EnvInput where
  /-- The level of `btn[i]` is sampled; `now` is the tick a handler would read (R164). -/
  | sample (i : InputId) (level : Bool) (now : Tick)
  /-- The level of `chan_free` changes (R10). -/
  | chanFree (free : Bool)
  /-- `rst` is asserted (R210). -/
  | rst
deriving DecidableEq, Repr

/-- An environment input and the number of the record it lands before (log 3). -/
structure Scheduled where
  due : Nat
  input : EnvInput
deriving DecidableEq, Repr

/-- The state of the block and of its input ports. -/
structure State where
  /-- The LED Frame, `px[0..N−1]`, by physical index (R20). -/
  px : Vector Color Config.numPixels
  /-- Register S0 (R23). -/
  ledMode : LedMode
  /-- Register S1: the pin `led_out` leaves on (R24). -/
  ledPin : Byte
  /-- The gate of input 0: S2 and bit 0 of S4 and S5 (R22, R25, R26). -/
  gate0 : Gate
  /-- The gate of input 1: S3 and bit 1 of S4 and S5 (R22, R25, R26). -/
  gate1 : Gate
  /-- The display framebuffer (R29). -/
  fb : Memory
  /-- The glyph ROMs (R28). -/
  rom : Rom
  /-- The protocol generator's output queue, oldest first (R31, R110). -/
  queue : List Color
  /-- The generator's output shift register: the symbols not yet on the pin (R31). -/
  shifter : List LedSymbol
  /-- `led_out`, oldest first (R12). -/
  ledOut : List LedSymbol
  /-- `disp_out`, oldest first, each frame in ascending address order (R12, R135). -/
  dispOut : List (List Byte)
  /-- `take_out`, oldest first (R12). -/
  takeOut : List Bool
  /-- The stimulus position: the index of the next record (R21). -/
  spos : Nat
  /-- The bytes of the stimulus stream from the next record on (R70). -/
  stream : List Byte
  /-- The environment's other inputs, in the order they land (log 3). -/
  env : List Scheduled
  /-- The level of the input `chan_free` (R10, R33). -/
  chanFree : Bool
  /-- The model's own: which unspecified contents hold since the last reset (log 8). -/
  epoch : Nat
deriving DecidableEq, Repr

/-- Why the machine stops with a fault. -/
inductive Fault where
  /-- The block is Halted after a `ConfigFatal`: no record has a step, for ever, until `rst` (R181, I7, I11). Raised by `step` and by
  every meaning. Safe: it allows nothing that the block does. -/
  | halted
deriving DecidableEq, Repr

/-- Why a record has no meaning. -/
inductive Refusal where
  /-- An instruction whose meaning is not written. Raised by no arm of `exec` in this model. Safe. -/
  | notModelled (mnemonic : String)
  /-- A reserved opcode byte: the spec gives the stream no meaning (R74). Raised by the fetch of a record. Safe. -/
  | reservedOpcode (op : Byte)
  /-- The stream ends inside a record (R75). Raised by the fetch of a record. Safe. -/
  | truncatedRecord
  /-- `TAKE` or `EDGE` of an input that does not exist (R75). Raised by the fetch of a record and by `TAKE` and `EDGE`. Safe. -/
  | noSuchInput (i : Byte)
  /-- `SETPX`, `CLEAR`, `FLUSH` or `DIGIT` while Uninit: the spec gives them no meaning (R113). Raised by those four. Safe. -/
  | ledNotReady
  /-- `INIT` while Ready: the spec gives it no meaning (R103). Raised by `INIT`. Safe. -/
  | alreadyInitialised
deriving DecidableEq, Repr

/-- What a meaning answers. -/
abbrev Result := Host.Outcome State Fault Refusal

/-- A gate after reset: Idle, tick 0, the pulled-up idle level (R22, R25, R26). -/
def Gate.reset : Gate := { pending := false, lastAccepted := 0#32, prev := true }

/-- The glyph ROMs of this hardware: parameters but for `DIGIT_ROM[5]` (R8, log 7). -/
def Rom.fixed : Rom where
  fontUpper := Vector.ofFn fun k => Vector.ofFn fun c => Config.fontUpperByte k.val c.val
  fontLower := Vector.ofFn fun k => Vector.ofFn fun c => Config.fontLowerByte k.val c.val
  digits := (Vector.ofFn fun d => Vector.ofFn fun r => Config.digitRomRow d.val r.val).set 5 Config.digitFive

/-- The unspecified contents of the LED Frame after reset number `epoch` (R20, log 5). -/
def powerOnFrame (epoch : Nat) : Vector Color Config.numPixels :=
  Vector.ofFn fun i =>
    { r := Config.powerOnColor epoch i.val 0, g := Config.powerOnColor epoch i.val 1, b := Config.powerOnColor epoch i.val 2 }

/-- The machine right after reset (R210 and the table of 10_state.md section 9): Uninit, gates at rest, queue, shifter and traces
empty, nothing written to the framebuffer, `px` and `led_pin` unspecified (log 5), no record presented (log 1), no input scheduled
(log 3), `chan_free` true (log 4). -/
def State.reset : State where
  px := powerOnFrame 0
  ledMode := .uninit
  ledPin := Config.powerOnPin 0
  gate0 := Gate.reset
  gate1 := Gate.reset
  fb := []
  rom := Rom.fixed
  queue := []
  shifter := []
  ledOut := []
  dispOut := []
  takeOut := []
  spos := 0
  stream := []
  env := []
  chanFree := true
  epoch := 0

end Sys2Proof.Machine
end

