-- ==== Sys2Proof/Machine/Operands.lean ====
section
/-! DEFINITION. How the operands of a record are used: each at its face value, zero-extended to what the rule's arithmetic needs
(R71, R77). -/

namespace Sys2Proof.Machine

/-- An input number; none where there is no such input (R75, R77). -/
def inputOf (i : Byte) : Option InputId :=
  if i.toNat = 0 then some .in0 else if i.toNat = 1 then some .in1 else none

/-- A display coordinate: an unsigned byte, as an integer (R77). -/
def coordOf (b : Byte) : Int := (b.toNat : Int)

/-- A physical LED index: an unsigned byte, as a natural number (R77). -/
def indexOf (b : Byte) : Nat := b.toNat

/-- A colour from its operands, red first (R77). -/
def colorOf (r g b : Byte) : Color := { r := r, g := g, b := b }

/-- The value of `DIGIT`; none above 9, where the whole command is rejected (R111). -/
def digitOf (v : Byte) : Option Nat := if v.toNat ≤ 9 then some v.toNat else none

/-- Run a meaning on the input its operand names; an input that does not exist is refused (R75). -/
def withInput (i : Byte) (k : InputId → Result) : Result :=
  match inputOf i with
  | some n => k n
  | none => .refused (.noSuchInput i)

end Sys2Proof.Machine
end

