-- ==== Sys2Proof/Syntax.lean ====
section
/-! DEFINITION. The ten operations of the block, one constructor for each row of the opcode table (R73), operands as the record
carries them (R71, R77). -/

namespace Sys2Proof

/-- A decoded record: a command of the main agent or the event `EDGE` of an interrupt agent (R70, R73). -/
inductive Instr where
  /-- `INIT pin` (R103, R104). -/
  | init (pin : Byte)
  /-- `SETPX idx, r, g, b`: a physical index and a colour, red first (R105). -/
  | setpx (idx r g b : Byte)
  /-- `CLEAR` (R106). -/
  | clear
  /-- `FLUSH` (R107). -/
  | flush
  /-- `DIGIT v` (R111). -/
  | digit (v : Byte)
  /-- `DRAWCH x, y, c` (R132). -/
  | drawch (x y c : Byte)
  /-- `DRAWSTR x, y, text` (R133); `len` is the length of `text`. -/
  | drawstr (x y : Byte) (text : List Byte)
  /-- `RENDER x, y, text` (R134). -/
  | render (x y : Byte) (text : List Byte)
  /-- `TAKE i` (R162). -/
  | take (i : Byte)
  /-- `EDGE i, now` (R161): the rising-edge handler of input `i`, with the tick it read. -/
  | edge (i : Byte) (now : Tick)
deriving DecidableEq, Repr

end Sys2Proof
end

