-- ==== Sys2Proof/WellFormed.lean ====
section
/-! DEFINITION. Which instructions have an encoding (R71, R75): the length of a text fits the `len` byte, and an input number names
an input. Every other operand value is legal. -/

namespace Sys2Proof

/-- `0 ≤ len ≤ 255` (R71). -/
def textFits (text : List Byte) : Bool := decide (text.length ≤ 255)

/-- `i < NUM_INPUTS` (R75). -/
def inputExists (i : Byte) : Bool := decide (i.toNat < Config.numInputs)

/-- The instruction has an encoding that R74 and R75 do not reserve. -/
def Instr.wellFormed : Instr → Bool
  | .init _ => true
  | .setpx _ _ _ _ => true
  | .clear => true
  | .flush => true
  | .digit _ => true
  | .drawch _ _ _ => true
  | .drawstr _ _ text => textFits text
  | .render _ _ text => textFits text
  | .take i => inputExists i
  | .edge i _ => inputExists i

end Sys2Proof
end

