-- ==== Sys2Proof/Decode.lean ====
section
/-! DEFINITION. The record decoder (R70 to R77), total on any bytes and rejecting by name, and after it the encoder, both written from
the opcode map of R73 and the formats of R72. -/

namespace Sys2Proof

/-- The ten operations of the opcode map (R73). -/
inductive Opcode where
  | init | setpx | clear | flush | digit | drawch | drawstr | render | take | edge
deriving DecidableEq, Repr

/-- The opcode byte of an operation (R73). -/
def Opcode.byte : Opcode → Byte
  | .init => 0x01#8
  | .setpx => 0x02#8
  | .clear => 0x03#8
  | .flush => 0x04#8
  | .digit => 0x05#8
  | .drawch => 0x10#8
  | .drawstr => 0x11#8
  | .render => 0x12#8
  | .take => 0x20#8
  | .edge => 0x21#8

/-- Every row of the opcode map (R73). -/
def Opcode.all : List Opcode := [.init, .setpx, .clear, .flush, .digit, .drawch, .drawstr, .render, .take, .edge]

/-- The operation an opcode byte selects; none for a reserved byte (R74). -/
def Opcode.ofByte (b : Byte) : Option Opcode := Opcode.all.find? (fun o => o.byte == b)

/-- Why a byte string is no record. Each is a refusal of the stream, never an effect of the hardware (R74, R75). -/
inductive DecodeError where
  /-- Byte 0 is not in the opcode map (R74). -/
  | reservedOpcode (op : Byte)
  /-- Fewer bytes than the record's length (R75). -/
  | truncated
  /-- `TAKE` or `EDGE` of an input that does not exist (R75). -/
  | noSuchInput (i : Byte)
deriving DecidableEq, Repr

/-- What a decoder answers: the instruction and the bytes after its record, or why there is none. -/
abbrev DecodeResult := Except DecodeError (Instr × List Byte)

/-- `now = t3 ‖ t2 ‖ t1 ‖ t0`, most significant byte first (R71, R77). -/
def tickOfBytes (t3 t2 t1 t0 : Byte) : Tick := t3 ++ t2 ++ t1 ++ t0

/-- Byte `k` of a tick, byte 0 the least significant. -/
def tickByte (t : Tick) (k : Nat) : Byte := t.extractLsb' (8 * k) 8

/-- Format `Z`: no operand (R72). -/
def readZ (i : Instr) (bs : List Byte) : DecodeResult := .ok (i, bs)

/-- Format `B`: one operand byte (R72). -/
def readB (mk : Byte → Instr) : List Byte → DecodeResult
  | a :: rest => .ok (mk a, rest)
  | _ => .error .truncated

/-- Format `P`: index, then red, green, blue (R72). -/
def readP (mk : Byte → Byte → Byte → Byte → Instr) : List Byte → DecodeResult
  | idx :: r :: g :: b :: rest => .ok (mk idx r g b, rest)
  | _ => .error .truncated

/-- Format `C`: coordinates and a character code (R72). -/
def readC (mk : Byte → Byte → Byte → Instr) : List Byte → DecodeResult
  | x :: y :: c :: rest => .ok (mk x y c, rest)
  | _ => .error .truncated

/-- Format `S`: coordinates, the length, then that many text bytes, which are never opcodes (R72, R76). -/
def readS (mk : Byte → Byte → List Byte → Instr) : List Byte → DecodeResult
  | x :: y :: len :: rest =>
    if rest.length < len.toNat then .error .truncated
    else .ok (mk x y (rest.take len.toNat), rest.drop len.toNat)
  | _ => .error .truncated

/-- Format `B` of `TAKE`: the operand must name an input (R75). -/
def readInput (mk : Byte → Instr) : List Byte → DecodeResult
  | i :: rest => if inputExists i then .ok (mk i, rest) else .error (.noSuchInput i)
  | _ => .error .truncated

/-- Format `T`: an input and a tick in four bytes, most significant first (R71, R72, R75). -/
def readT (mk : Byte → Tick → Instr) : List Byte → DecodeResult
  | i :: t3 :: t2 :: t1 :: t0 :: rest =>
    if inputExists i then .ok (mk i (tickOfBytes t3 t2 t1 t0), rest) else .error (.noSuchInput i)
  | _ => .error .truncated

/-- The operand bytes of an operation, by its format (R72, R73). -/
def readOperands : Opcode → List Byte → DecodeResult
  | .init => readB .init
  | .setpx => readP .setpx
  | .clear => readZ .clear
  | .flush => readZ .flush
  | .digit => readB .digit
  | .drawch => readC .drawch
  | .drawstr => readS .drawstr
  | .render => readS .render
  | .take => readInput .take
  | .edge => readT .edge

/-- Read one record from the front of a byte string: byte 0 selects the operation, then its operand bytes (R72). -/
def decode : List Byte → DecodeResult
  | [] => .error .truncated
  | op :: rest =>
    match Opcode.ofByte op with
    | none => .error (.reservedOpcode op)
    | some o => readOperands o rest

/-- The row of the opcode map an instruction belongs to (R73). -/
def Instr.opcode : Instr → Opcode
  | .init _ => .init
  | .setpx _ _ _ _ => .setpx
  | .clear => .clear
  | .flush => .flush
  | .digit _ => .digit
  | .drawch _ _ _ => .drawch
  | .drawstr _ _ _ => .drawstr
  | .render _ _ _ => .render
  | .take _ => .take
  | .edge _ _ => .edge

/-- The operand bytes of an instruction, by its format (R71, R72). -/
def Instr.operands : Instr → List Byte
  | .init pin => [pin]
  | .setpx idx r g b => [idx, r, g, b]
  | .clear => []
  | .flush => []
  | .digit v => [v]
  | .drawch x y c => [x, y, c]
  | .drawstr x y text => x :: y :: BitVec.ofNat 8 text.length :: text
  | .render x y text => x :: y :: BitVec.ofNat 8 text.length :: text
  | .take i => [i]
  | .edge i now => [i, tickByte now 3, tickByte now 2, tickByte now 1, tickByte now 0]

/-- The record of an instruction: its opcode byte, then its operands (R70). -/
def encode (i : Instr) : List Byte := i.opcode.byte :: i.operands

/-- The length of an instruction's record in bytes (R72, R76). -/
def Instr.recordLength : Instr → Nat
  | .init _ => 2
  | .setpx _ _ _ _ => 5
  | .clear => 1
  | .flush => 1
  | .digit _ => 2
  | .drawch _ _ _ => 4
  | .drawstr _ _ text => 4 + text.length
  | .render _ _ text => 4 + text.length
  | .take _ => 2
  | .edge _ _ => 6

/-- Byte `k` of a number, byte 0 the least significant: the opcode table numbers a record's bits from its first byte up. -/
def byteOfWord (w k : Nat) : Byte := BitVec.ofNat 8 (w >>> (8 * k))

/-- The bytes that the opcode table's bits give, first byte first. -/
def tableBytes (nbits w : Nat) : List Byte := (List.range (nbits / 8)).map (byteOfWord w)

/-- The bytes of a record whose bits are `w` in the opcode table's numbering; every bit at `nbits` and above is 0, as far as the
longest record that begins with these bytes reaches (6 bytes, or `4 + len`: R72, R76). -/
def layOut (nbits w : Nat) : List Byte :=
  let given := tableBytes nbits w
  given ++ List.replicate (6 + (given.getD 3 0#8).toNat) 0#8

/-- The instruction the decoder reads from a record whose bits are `w` in the opcode table's numbering. -/
def decodeTableWord (nbits w : Nat) : Option Instr :=
  match decode (layOut nbits w) with
  | .ok (i, _) => some i
  | .error _ => none

/-- The bytes of the first record alone, where there is one; all the bytes otherwise. -/
def firstRecord (bs : List Byte) : List Byte :=
  match decode bs with
  | .ok (_, rest) => bs.take (bs.length - rest.length)
  | .error _ => bs

end Sys2Proof
end

