-- ==== Sys2Proof/Machine/Ops.lean ====
section
/-! DEFINITION. The operations the meanings share: registers and gates, the framebuffer, the serpentine map, the protocol generator,
the renderer's primitives, the configuration error, and reset. -/

namespace Sys2Proof.Machine

/-! ### Modes and the configuration error -/

/-- The two bits of register S0 (R23). -/
def LedMode.bits : LedMode → BitVec 2
  | .uninit => 0#2
  | .ready => 1#2
  | .halted => 2#2

/-- The observation `halted` (R12, R34). -/
def State.halted (s : State) : Bool := s.ledMode == .halted

/-- A command or event has a step only while the block is not Halted (R181, I11). -/
def whenLive (s : State) (k : Result) : Result :=
  match s.ledMode with
  | .uninit => k
  | .ready => k
  | .halted => .fault .halted

/-- The commands of the initialised LED driver: defined only in Ready; refused in Uninit; no step in Halted (R113). -/
def whenReady (s : State) (k : Result) : Result :=
  match s.ledMode with
  | .uninit => .refused .ledNotReady
  | .ready => k
  | .halted => .fault .halted

/-- `raise ConfigFatal` (R181): the block's one exception. `led_mode <- Halted`; nothing is saved, there is no handler and no vector. -/
def raiseConfigFatal (s : State) : State := { s with ledMode := .halted }

/-- Asserting `rst` (R210), the only way out of Halted; the exception has no return of its own. Every piece of state takes its reset
value, the unspecified ones drawn afresh (log 8); the ROMs (R28) and what belongs to the environment are left alone (log 13). -/
def assertReset (s : State) : State :=
  { State.reset with
    px := powerOnFrame (s.epoch + 1)
    ledPin := Config.powerOnPin (s.epoch + 1)
    rom := s.rom
    stream := s.stream
    env := s.env
    chanFree := s.chanFree
    epoch := s.epoch + 1 }

/-! ### The gates -/

/-- The gate of an input. -/
def State.gate (s : State) : InputId → Gate
  | .in0 => s.gate0
  | .in1 => s.gate1

/-- Replace the gate of an input; the other gate is untouched (R160). -/
def State.setGate (s : State) (i : InputId) (g : Gate) : State :=
  match i with
  | .in0 => { s with gate0 := g }
  | .in1 => { s with gate1 := g }

/-- `respond(b)`: append to `take_out`. -/
def respond (b : Bool) (s : State) : State := { s with takeOut := s.takeOut ++ [b] }

/-! ### The LED Frame -/

/-- `(0, 0, 0)`. -/
def Color.black : Color := { r := 0#8, g := 0#8, b := 0#8 }

/-- Full-intensity red, `(255, 0, 0)` (R111). -/
def Color.fullRed : Color := { r := 255#8, g := 0#8, b := 0#8 }

/-- Every pixel `(0, 0, 0)` (R103, R106). -/
def blackFrame : Vector Color Config.numPixels := Vector.replicate Config.numPixels Color.black

/-- `px[i] <- c`; an index outside `0..N−1` is rejected: nothing is written (R105, R182). -/
def setPixel (px : Vector Color Config.numPixels) (i : Nat) (c : Color) : Vector Color Config.numPixels :=
  if h : i < Config.numPixels then px.set i c h else px

/-! ### The serpentine address mapper -/

/-- `phys(x, y)` on a matrix of width `w` (R100): even rows run one way, odd rows the other. -/
def physOf (w x y : Nat) : Nat :=
  if y % 2 = 0 then y * w + x else (y + 1) * w - 1 - x

/-- The inverse of `phys` on a matrix of width `w` (R101). -/
def logicalOf (w i : Nat) : Nat × Nat :=
  (if i / w % 2 = 0 then i % w else w - 1 - i % w, i / w)

/-- `phys(x, y)` on this matrix; a coordinate outside it is rejected before the formula is applied (R102). -/
def phys (x y : Nat) : Option Nat :=
  if x < Config.matrixW ∧ y < Config.matrixH then some (physOf Config.matrixW x y) else none

/-- The pixel at logical `(x, y)` takes a colour; outside the matrix nothing is written (R102). -/
def setLogicalPixel (px : Vector Color Config.numPixels) (x y : Nat) (c : Color) : Vector Color Config.numPixels :=
  match phys x y with
  | some i => setPixel px i c
  | none => px

/-! ### The protocol generator -/

/-- `send_byte(v)`: one symbol per bit, most significant bit first (R108). -/
def sendByte (v : Byte) : List LedSymbol :=
  [7, 6, 5, 4, 3, 2, 1, 0].map fun k => if v.getLsbD k then .b1 else .b0

/-- The symbols of one pixel: green, red, blue (R50, R51). -/
def pixelSymbols (c : Color) : List LedSymbol := sendByte c.g ++ sendByte c.r ++ sendByte c.b

/-- The symbols of a frame: the pixels in physical-index order (R51, R107). -/
def frameSymbols (px : Vector Color Config.numPixels) : List LedSymbol := px.toList.flatMap pixelSymbols

/-- The generator (R31): its output queue, its shift register and the data pin. -/
structure Emitter where
  queue : List Color
  shifter : List LedSymbol
  out : List LedSymbol
deriving DecidableEq, Repr

/-- The generator shifts out what its register holds, then takes the oldest queue entry into it (R110). -/
def Emitter.advance : Emitter → Emitter
  | { queue := [], shifter, out } => { queue := [], shifter := [], out := out ++ shifter }
  | { queue := c :: rest, shifter, out } => { queue := rest, shifter := pixelSymbols c, out := out ++ shifter }

/-- Submit one entry: when the queue holds `depth` entries, wait until the generator has taken one (R110). -/
def Emitter.submit (depth : Nat) (e : Emitter) (c : Color) : Emitter :=
  let room := if e.queue.length < depth then e else e.advance
  { room with queue := room.queue ++ [c] }

/-- Let the generator take the next `n` entries. -/
def Emitter.run : Nat → Emitter → Emitter
  | 0, e => e
  | n + 1, e => Emitter.run n e.advance

/-- The generator works until the queue and the register are empty: no other agent can stop it (R110). -/
def Emitter.drain (e : Emitter) : Emitter := Emitter.run (e.queue.length + 1) e

/-- Submit every pixel of a frame and hold for the latch period, counted from the last symbol on the wire (R107, R109). -/
def Emitter.sendFrame (depth : Nat) (px : Vector Color Config.numPixels) (e : Emitter) : Emitter :=
  let e' := (px.toList.foldl (Emitter.submit depth) e).drain
  { e' with out := e'.out ++ [.latch] }

/-- The generator as the state holds it. -/
def State.emitter (s : State) : Emitter := { queue := s.queue, shifter := s.shifter, out := s.ledOut }

/-- Put the generator back into the state. -/
def State.setEmitter (s : State) (e : Emitter) : State :=
  { s with queue := e.queue, shifter := e.shifter, ledOut := e.out }

/-- The body of `FLUSH` (R107). -/
def flushFrame (s : State) : State := s.setEmitter (s.emitter.sendFrame Config.queueDepth s.px)

/-! ### Digit glyphs -/

/-- `digit_bit(v, x, y) = DIGIT_ROM[v][y][4 − x]` (R55); no bit outside the table. -/
def digitBit (rom : Rom) (v x y : Nat) : Bool :=
  if h : v < 10 ∧ y < 5 then
    have := h.1
    have := h.2
    (rom.digits[v])[y].getLsbD (4 - x) && decide (x < 5)
  else false

/-- The logical coordinates of a digit glyph, row by row (R111). -/
def digitCells : List (Nat × Nat) :=
  [0, 1, 2, 3, 4].flatMap fun y => [0, 1, 2, 3, 4].map fun x => (x, y)

/-- The glyph of digit `v` in red on a black frame, through the serpentine map (R111). -/
def digitFrame (rom : Rom) (v : Nat) : Vector Color Config.numPixels :=
  digitCells.foldl (fun px p => if digitBit rom v p.1 p.2 then setLogicalPixel px p.1 p.2 Color.fullRed else px) blackFrame

/-! ### The framebuffer -/

/-- The byte written at an address since reset, if any. -/
def Memory.lookup : Memory → Nat → Option Byte
  | [], _ => none
  | (k, v) :: rest, a => if k = a then some v else Memory.lookup rest a

/-- The list with address `a` at `v`, in address order. -/
def Memory.insert (a : Nat) (v : Byte) : Memory → Memory
  | [] => [(a, v)]
  | (k, w) :: rest =>
    if a < k then (a, v) :: (k, w) :: rest
    else if a = k then (a, v) :: rest
    else (k, w) :: Memory.insert a v rest

/-- Addresses strictly rising, each above `bound` where there is one, and below `FB_BYTES`. -/
def Memory.sortedFrom : Option Nat → Memory → Bool
  | _, [] => true
  | bound, (k, _) :: rest =>
    (match bound with
      | none => true
      | some b => decide (b < k)) && decide (k < Config.fbBytes) && Memory.sortedFrom (some k) rest

/-- The canonical form: addresses strictly rising and inside the framebuffer (R29). An unlisted address has no value of its own, so
no entry can equal it and two memories that know the same bytes are the same list. -/
def Memory.wf (m : Memory) : Bool := Memory.sortedFrom none m

/-- `MemRead(a, 1)` (R57). A byte that nothing has written since reset reads as a free value (R211, log 6). -/
def Memory.read (epoch : Nat) (m : Memory) (a : Nat) : Byte :=
  match Memory.lookup m a with
  | some v => v
  | none => Config.powerOnByte epoch a

/-- `MemWrite(a, 1, v)` (R57). An address outside the framebuffer never reaches storage (R58). -/
def Memory.write (m : Memory) (a : Nat) (v : Byte) : Memory :=
  if a < Config.fbBytes then Memory.insert a v m else m

/-- The framebuffer byte at `a`, as the state reads it. -/
def State.fbRead (s : State) (a : Nat) : Byte := Memory.read s.epoch s.fb a

/-- Every byte `0x00`: the clear of `RENDER` (R134). -/
def clearedMemory : Memory := (List.range Config.fbBytes).map fun a => (a, 0x00#8)

/-- The byte address of display pixel `(u, v)` (R52). -/
def fbAddress (u v : Nat) : Nat := v / 8 * Config.dispW + u

/-- `0 ≤ u < DISP_W` and `0 ≤ v < DISP_H`. -/
def onDisplay (u v : Int) : Bool := decide (0 ≤ u ∧ u < Config.dispW ∧ 0 ≤ v ∧ v < Config.dispH)

/-- Whether display pixel `(u, v)` is on: bit `v mod 8` of its byte (R53). -/
def Memory.pixel (epoch : Nat) (m : Memory) (u v : Nat) : Bool :=
  (Memory.read epoch m (fbAddress u v)).getLsbD (v % 8)

/-- `SetFbPixel(u, v)`: OR one bit into its byte, or reject a coordinate outside the display (R131). -/
def setFbPixel (epoch : Nat) (u v : Int) (m : Memory) : Memory :=
  if onDisplay u v then
    let a := fbAddress u.toNat v.toNat
    Memory.write m a (Memory.read epoch m a ||| (1#8 <<< (v.toNat % 8)))
  else m

/-! ### Text -/

/-- `glyph(c)` (R130): letters select a table by their offset; everything else has no glyph. -/
def glyph (rom : Rom) (c : Byte) : Option (Vector Byte 5) :=
  if h : 0x41 ≤ c.toNat ∧ c.toNat ≤ 0x5A then some (rom.fontUpper[c.toNat - 0x41]'(by omega))
  else if h : 0x61 ≤ c.toNat ∧ c.toNat ≤ 0x7A then some (rom.fontLower[c.toNat - 0x61]'(by omega))
  else none

/-- Bit `row` of byte `column` of a text glyph (R54). -/
def glyphBit (g : Vector Byte 5) (column row : Nat) : Bool :=
  if h : column < 5 then g[column].getLsbD row else false

/-- The 35 cells of a text glyph, column by column; bit 7 of a byte is never visited (R54, R132). -/
def glyphCells : List (Nat × Nat) :=
  [0, 1, 2, 3, 4].flatMap fun column => [0, 1, 2, 3, 4, 5, 6].map fun row => (column, row)

/-- The body of `DRAWCH` on a glyph: each set bit sets its pixel, each clear bit leaves it (R132). -/
def drawGlyph (epoch : Nat) (g : Vector Byte 5) (x y : Int) (m : Memory) : Memory :=
  glyphCells.foldl (fun m p => if glyphBit g p.1 p.2 then setFbPixel epoch (x + p.1) (y + p.2) m else m) m

/-- The body of `DRAWCH` (R132): a character with no glyph draws nothing. -/
def drawChar (epoch : Nat) (rom : Rom) (x y : Int) (c : Byte) (m : Memory) : Memory :=
  match glyph rom c with
  | some g => drawGlyph epoch g x y m
  | none => m

/-- The newline code `0x0A` (R133). -/
def newline : Byte := 0x0A#8

/-- The body of `DRAWSTR` from the cursor `(cx, cy)` of a text that started at column `x` (R133): a newline returns to `x` and moves
down 8; every other character is drawn and moves right 6. The cursors are integers and never wrap. -/
def drawText (epoch : Nat) (rom : Rom) (x : Int) : Int → Int → List Byte → Memory → Memory
  | _, _, [], m => m
  | cx, cy, ch :: rest, m =>
    if ch = newline then drawText epoch rom x x (cy + 8) rest m
    else drawText epoch rom x (cx + 6) cy rest (drawChar epoch rom cx cy ch m)

/-- The frame `Transfer()` sends: the whole buffer in ascending address order (R135). -/
def frameBytes (epoch : Nat) (m : Memory) : List Byte := (List.range Config.fbBytes).map (Memory.read epoch m)

/-- `Transfer()`: append the frame to `disp_out`; the framebuffer is unchanged (R135). -/
def transfer (s : State) : State := { s with dispOut := s.dispOut ++ [frameBytes s.epoch s.fb] }

end Sys2Proof.Machine
end

