-- ==== Sys2Proof/Machine/Bitmap.lean ====
section
/-! DEFINITION. The Bitmap Renderer: `DRAWCH`, `DRAWSTR`, `RENDER` (41_bitmap_renderer.md). It does not depend on `led_mode` but for
Halted, in which no command executes (R181). -/

namespace Sys2Proof.Machine

/-- `DRAWCH x, y, c` (R132). -/
def execDrawch (x y c : Byte) (s : State) : Result :=
  whenLive s (.next { s with fb := drawChar s.epoch s.rom (coordOf x) (coordOf y) c s.fb })

/-- `DRAWSTR x, y, text` (R133). -/
def execDrawstr (x y : Byte) (text : List Byte) (s : State) : Result :=
  whenLive s (.next { s with fb := drawText s.epoch s.rom (coordOf x) (coordOf x) (coordOf y) text s.fb })

/-- `RENDER x, y, text` (R134): clear, the body of `DRAWSTR`, then the transfer of the whole buffer. -/
def execRender (x y : Byte) (text : List Byte) (s : State) : Result :=
  whenLive s (.next (transfer
    { s with fb := drawText s.epoch s.rom (coordOf x) (coordOf x) (coordOf y) text clearedMemory }))

end Sys2Proof.Machine
end

