-- ==== Sys2Proof/Machine/Flags.lean ====
section
/-! DEFINITION. The block's only condition flags, `pending[i]` (R22): when an edge is accepted, how a set and a clear combine, and the
rising-edge detector in front of them. -/

namespace Sys2Proof.Machine

/-- `delta = (now − last_accepted) mod 2^32` (R161). -/
def edgeDelta (now last : Tick) : Tick := now - last

/-- The window test: accepted unless `delta < WINDOW`; the comparison is strict (R161). -/
def edgeAccepted (now last : Tick) : Bool := !decide ((edgeDelta now last).toNat < Config.window)

/-- `pending' = accept OR (pending AND NOT take)`: the set wins over the clear (R62, R163). -/
def nextPending (accept pending take : Bool) : Bool := accept || (pending && !take)

/-- `rise = (prev = 0) AND (btn = 1)` (R164). -/
def rise (prev btn : Bool) : Bool := !prev && btn

/-- A gate after an edge at `now`: an accepted edge records its tick and sets `pending`; a discarded one writes nothing (R161). -/
def Gate.onEdge (g : Gate) (now : Tick) : Gate :=
  if edgeAccepted now g.lastAccepted then { g with lastAccepted := now, pending := nextPending true g.pending false } else g

/-- A gate after a take: `pending` is cleared, nothing else changes (R162). -/
def Gate.onTake (g : Gate) : Gate := { g with pending := nextPending false g.pending true }

/-- A gate after a sample of its pin: `prev` follows the level, and a rise runs the handler (R164). -/
def Gate.onSample (g : Gate) (level : Bool) (now : Tick) : Gate :=
  let g' := { g with prev := level }
  if rise g.prev level then g'.onEdge now else g'

/-- The interrupt handler of input `i` (R161, R185, R188): entry and return save and restore nothing, and only gate `i` is touched. -/
def edgeHandler (i : InputId) (now : Tick) (s : State) : State := s.setGate i ((s.gate i).onEdge now)

/-- A sample of pin `btn[i]` (R164). -/
def samplePin (i : InputId) (level : Bool) (now : Tick) (s : State) : State := s.setGate i ((s.gate i).onSample level now)

/-- The atomic read-and-clear of `pending[i]` (R61, R162): the answer is the value before the step. -/
def takeEvent (i : InputId) (s : State) : State :=
  respond (s.gate i).pending (s.setGate i (s.gate i).onTake)

end Sys2Proof.Machine
end

