-- ==== Sys2Proof/Machine/Debounce.lean ====
section
/-! DEFINITION. The Debounce Gate: the command `TAKE` and the event `EDGE` (42_debounce_gate.md). -/

namespace Sys2Proof.Machine

/-- `TAKE i` (R162): answer `pending[i]` and clear it, in one indivisible step. -/
def execTake (i : Byte) (s : State) : Result :=
  whenLive s (withInput i fun n => .next (takeEvent n s))

/-- `EDGE i, now` (R161): the interrupt handler of input `i`. -/
def execEdge (i : Byte) (now : Tick) (s : State) : Result :=
  whenLive s (withInput i fun n => .next (edgeHandler n now s))

end Sys2Proof.Machine
end

