-- ==== Sys2Proof/Machine/LedMatrix.lean ====
section
/-! DEFINITION. The LED Matrix Driver: `INIT`, `SETPX`, `CLEAR`, `FLUSH`, `DIGIT` (40_led_matrix.md). -/

namespace Sys2Proof.Machine

/-- `INIT pin` (R103, R104). In Uninit: with a free channel the pin is stored, the frame zeroed and the mode Ready, and nothing is
emitted; with none, `ConfigFatal`. In Ready the spec gives a second `INIT` no meaning; in Halted it cannot execute. -/
def execInit (pin : Byte) (s : State) : Result :=
  match s.ledMode with
  | .uninit =>
    if s.chanFree then .next { s with ledPin := pin, px := blackFrame, ledMode := .ready }
    else .next (raiseConfigFatal s)
  | .ready => .refused .alreadyInitialised
  | .halted => .fault .halted

/-- `SETPX idx, r, g, b` (R105): one physical pixel; an index outside the frame is rejected. -/
def execSetpx (idx r g b : Byte) (s : State) : Result :=
  whenReady s (.next { s with px := setPixel s.px (indexOf idx) (colorOf r g b) })

/-- `CLEAR` (R106): every pixel `(0, 0, 0)`. -/
def execClear (s : State) : Result :=
  whenReady s (.next { s with px := blackFrame })

/-- `FLUSH` (R107): the whole frame on the data pin, then the latch period. -/
def execFlush (s : State) : Result :=
  whenReady s (.next (flushFrame s))

/-- `DIGIT v` (R111): above 9 the whole command is rejected; otherwise the glyph in red on a cleared frame, then the body of `FLUSH`. -/
def execDigit (v : Byte) (s : State) : Result :=
  whenReady s <|
    match digitOf v with
    | some d => .next (flushFrame { s with px := digitFrame s.rom d })
    | none => .next s

end Sys2Proof.Machine
end

