-- ==== Sys2Proof/Machine/Dispatch.lean ====
section
/-! DEFINITION. One arm per operation of the opcode table. -/

namespace Sys2Proof.Machine

def exec (i : Instr) (s : State) : Host.Outcome State Fault Refusal :=
  match i with
  | .init pin => Sys2Proof.Machine.execInit pin s
  | .setpx idx r g b => Sys2Proof.Machine.execSetpx idx r g b s
  | .clear => Sys2Proof.Machine.execClear s
  | .flush => Sys2Proof.Machine.execFlush s
  | .digit v => Sys2Proof.Machine.execDigit v s
  | .drawch x y c => Sys2Proof.Machine.execDrawch x y c s
  | .drawstr x y text => Sys2Proof.Machine.execDrawstr x y text s
  | .render x y text => Sys2Proof.Machine.execRender x y text s
  | .take n => Sys2Proof.Machine.execTake n s
  | .edge n now => Sys2Proof.Machine.execEdge n now s

end Sys2Proof.Machine
end

