-- ==== Sys2Proof/Machine/Fetch.lean ====
section
/-! DEFINITION. What the block does next: an input of the environment that is due, the next record of the stimulus stream, or nothing
(R11, R13, R70, R210). -/

namespace Sys2Proof.Machine

/-- The work of one step. -/
inductive Work where
  /-- Halted, and the environment asserts no reset: there is no step (R181). -/
  | stuck
  /-- Nothing is presented: the block waits (R210, log 2). -/
  | idle
  /-- An environment input lands; `rest` is what the environment has after it. -/
  | input (e : EnvInput) (rest : List Scheduled)
  /-- The next record of the stream executes. -/
  | record
deriving DecidableEq, Repr

/-- What the environment has from its first `rst` on. In Halted nothing else is handled (R181): a pin sample before the `rst` is dropped,
and a change of `chan_free`, which is the environment's level and no step of the block, stands right after the `rst` (log 12). -/
def fromReset : List Scheduled → List Scheduled
  | [] => []
  | e :: rest =>
    match e.input with
    | .rst => e :: rest
    | .sample _ _ _ => fromReset rest
    | .chanFree free =>
      match fromReset rest with
      | [] => []
      | r :: later => r :: { due := 0, input := .chanFree free } :: later

/-- An input lands before the record whose number it names, or when no record is presented (log 3). -/
def State.isDue (s : State) (e : Scheduled) : Bool := decide (e.due ≤ s.spos) || s.stream.isEmpty

/-- What the block does while it is not Halted. -/
def liveWork (s : State) : Work :=
  match s.env with
  | e :: rest => if s.isDue e then .input e.input rest else .record
  | [] => if s.stream.isEmpty then .idle else .record

/-- What the block does while it is Halted: only a reset leaves that mode (R23, R181). -/
def haltedWork (s : State) : Work :=
  match fromReset s.env with
  | e :: rest => .input e.input rest
  | [] => .stuck

/-- What the next step does. -/
def nextWork (s : State) : Work :=
  match s.ledMode with
  | .uninit => liveWork s
  | .ready => liveWork s
  | .halted => haltedWork s

/-- An environment input takes effect. -/
def applyInput (e : EnvInput) (s : State) : State :=
  match e with
  | .sample i level now => samplePin i level now s
  | .chanFree free => { s with chanFree := free }
  | .rst => assertReset s

/-- A stream that decodes to no record is refused, by name (R74, R75). -/
def refusalOf : DecodeError → Refusal
  | .reservedOpcode op => .reservedOpcode op
  | .truncated => .truncatedRecord
  | .noSuchInput i => .noSuchInput i

/-- The next record of the stream and the bytes after it (R70, R72). -/
def fetch (s : State) : DecodeResult := decode s.stream

/-- The record has executed: the stimulus position moves on by exactly one record and the stream continues after it (R21, R82). -/
def State.pastRecord (s : State) (rest : List Byte) : State := { s with stream := rest, spos := s.spos + 1 }

/-- Move past a record that executed; a fault or a refusal stays as it is. -/
def retire (rest : List Byte) : Result → Result
  | .next t => .next (t.pastRecord rest)
  | .fault f => .fault f
  | .refused r => .refused r

end Sys2Proof.Machine
end

