-- ==== Sys2Proof/Machine/Step.lean ====
section
/-! DEFINITION. One step of the block: an environment input, a record of the stimulus stream, or a wait. -/

namespace Sys2Proof.Machine

/-- One step (R11, R60, R82). DESIGN CHOICE (log 22): a stream that holds a reserved opcode or ends inside a record is refused when the
fetch reaches that record, and the records before it have executed; R74 and R75 refuse the stream and do not say when. -/
def step (s : State) : Host.Outcome State Fault Refusal :=
  match nextWork s with
  | .stuck => .fault .halted
  | .idle => .next s
  | .input e rest => .next (applyInput e { s with env := rest })
  | .record =>
    match fetch s with
    | .ok (i, rest) => retire rest (exec i s)
    | .error e => .refused (refusalOf e)

/-- `s` with the record whose bits are `w` (in the opcode table's numbering; bits at `nbits` and above are 0) presented as the whole
stimulus stream, and no other input of the environment before it (log 1). -/
def State.withFetchWord (s : State) (nbits w : Nat) : State :=
  { s with stream := firstRecord (layOut nbits w), env := [] }

end Sys2Proof.Machine
end

