-- ==== Sys2Proof/Safety.lean ====
section
/-! DEFINITION. What a run shows and when it is over (R12, R14), the invariant of the machine, and a run of several instructions. -/

namespace Sys2Proof.Machine

/-- What the block shows the outside: exactly four things (R12). -/
structure Observation where
  ledOut : List LedSymbol
  dispOut : List (List Byte)
  takeOut : List Bool
  halted : Bool
deriving DecidableEq, Repr

/-- The observation of a state (R12, R34). -/
def State.observe (s : State) : Observation :=
  { ledOut := s.ledOut, dispOut := s.dispOut, takeOut := s.takeOut, halted := s.halted }

/-- A run is over when every record has executed and the block is not Halted (R14). DESIGN CHOICE (log 23): inputs of the environment
that are still scheduled do not keep a run from being over; R14 counts records, and the list of inputs is the model's (log 3). -/
def State.final (s : State) : Bool := s.stream.isEmpty && !s.halted

/-- What one `FLUSH` of a frame puts on the data pin: every pixel, then the latch period (R107). -/
def wireFrame (px : Vector Color Config.numPixels) : List LedSymbol := frameSymbols px ++ [.latch]

/-- A symbol sequence is whole frames, each ended by its latch: a frame is transmitted, never partially (R107, R109). -/
def WholeFrames (out : List LedSymbol) : Prop :=
  ∃ frames : List (Vector Color Config.numPixels), out = frames.flatMap wireFrame

/-- The invariant of the machine, at every record boundary. -/
structure State.Inv (s : State) : Prop where
  /-- The framebuffer's list is canonical and inside `0..FB_BYTES−1` (R29, R58). -/
  fbWf : s.fb.wf = true
  /-- `DIGIT_ROM[5]` is the source's (R8, R28). -/
  digitFive : s.rom.digits[5] = Config.digitFive
  /-- The generator's queue is empty at every command boundary (R31). -/
  queueEmpty : s.queue = []
  /-- The generator's shift register is empty at every command boundary (R31). -/
  shifterEmpty : s.shifter = []
  /-- The LED wire has carried whole frames only (R107, R109). -/
  wireWhole : WholeFrames s.ledOut
  /-- Nothing has left on the LED wire unless the driver is Ready (R103, R113). -/
  wireQuiet : s.ledMode ≠ .ready → s.ledOut = []
  /-- Every frame handed to the display is the whole buffer (R12, R135). -/
  displayWhole : ∀ f ∈ s.dispOut, f.length = Config.fbBytes

/-- Execute a list of instructions, stopping at the first fault or refusal. -/
def execAll : List Instr → State → Result
  | [], s => .next s
  | i :: rest, s =>
    match exec i s with
    | .next t => execAll rest t
    | .fault f => .fault f
    | .refused r => .refused r

/-- The next step executes a record: the block is not Halted, a record is presented, and no input of the environment lands before it. -/
def State.recordNext (s : State) : Prop :=
  s.ledMode ≠ .halted ∧ s.stream ≠ [] ∧ ∀ e, s.env.head? = some e → s.spos < e.due

/-- An instruction is an `EDGE` of input `n` that its gate accepts in this state (R161). -/
def acceptsEdge (n : InputId) (i : Instr) (s : State) : Bool :=
  match i with
  | .edge k now => inputOf k == some n && edgeAccepted now (s.gate n).lastAccepted
  | _ => false

/-- How many edges of input `n` are accepted while a list of instructions executes from a state. -/
def acceptedEdges (n : InputId) : List Instr → State → Nat
  | [], _ => 0
  | i :: rest, s =>
    (acceptsEdge n i s).toNat +
      match exec i s with
      | .next t => acceptedEdges n rest t
      | _ => 0

/-- The operands of the `TAKE`s of a list of instructions, in order: one for each answer (R162). -/
def takeOperands (ops : List Instr) : List Byte :=
  ops.filterMap fun i => match i with
    | .take k => some k
    | _ => none

/-- How many answers to `TAKE n` are `true`, given the operands of the `TAKE`s and their answers in order. -/
def trueAnswers (n : InputId) (operands : List Byte) (answers : List Bool) : Nat :=
  (operands.zip answers).countP fun p => inputOf p.1 == some n && p.2

/-- The symbol of a bit on the wire (R108). -/
def bitSymbol (b : Bool) : LedSymbol := if b then .b1 else .b0

/-- How many newlines stand before character `k` of a text (R133). -/
def lineOf (text : List Byte) (k : Nat) : Nat := ((text.take k).filter (· = newline)).length

/-- How many characters stand between the last newline before character `k` (or the text's start) and character `k` (R133). -/
def columnOf (text : List Byte) (k : Nat) : Nat := ((text.take k).reverse.takeWhile (· ≠ newline)).length

/-- Character `c` drawn with its origin at `(x, y)` covers display pixel `(u, v)`: it has a glyph, and bit `row` of byte
`column` of the glyph is 1 there (R54, R130, R132). -/
def inkAt (rom : Rom) (c : Byte) (x y : Int) (u v : Nat) : Prop :=
  ∃ g, glyph rom c = some g ∧ ∃ column row : Nat, ∃ h : column < 5, row < 7 ∧ g[column].getLsbD row = true ∧
    (u : Int) = x + column ∧ (v : Int) = y + row

/-- A text drawn from `(x, y)` covers display pixel `(u, v)`: one of its characters does, at its own cursor position (R133). -/
def textInkAt (rom : Rom) (text : List Byte) (x y : Int) (u v : Nat) : Prop :=
  ∃ k c, text[k]? = some c ∧ c ≠ newline ∧ inkAt rom c (x + 6 * columnOf text k) (y + 8 * lineOf text k) u v

/-- Whether display pixel `(u, v)` is on: bit `v mod 8` of byte `(v div 8)·128 + u` (R52, R53). -/
def State.pixelOn (s : State) (u v : Nat) : Bool := (s.fbRead (v / 8 * 128 + u)).getLsbD (v % 8)

end Sys2Proof.Machine
end

