-- ==== Sys2Proof/Certificates/Slice0/Obligations.lean ====
section
/-! DEFINITION. The statements for the provers. Each docstring says which rule of spec/ it formalises. -/

open Sys2Proof Sys2Proof.Machine

/-! ### Encoding -/

/-- The ten worked encodings of 30_encoding.md section 9 decode to their records. -/
def Obligations.WorkedEncodingsDecode : Prop :=
  decode [0x01#8, 0x07#8] = .ok (.init 7#8, []) ∧
  decode [0x02#8, 0x03#8, 0x0A#8, 0x14#8, 0x1E#8] = .ok (.setpx 3#8 10#8 20#8 30#8, []) ∧
  decode [0x03#8] = .ok (.clear, []) ∧
  decode [0x04#8] = .ok (.flush, []) ∧
  decode [0x05#8, 0x05#8] = .ok (.digit 5#8, []) ∧
  decode [0x10#8, 0x05#8, 0x00#8, 0x48#8] = .ok (.drawch 5#8 0#8 0x48#8, []) ∧
  decode [0x11#8, 0x05#8, 0x00#8, 0x02#8, 0x48#8, 0x69#8] = .ok (.drawstr 5#8 0#8 [0x48#8, 0x69#8], []) ∧
  decode [0x12#8, 0x00#8, 0x00#8, 0x00#8] = .ok (.render 0#8 0#8 [], []) ∧
  decode [0x20#8, 0x01#8] = .ok (.take 1#8, []) ∧
  decode [0x21#8, 0x00#8, 0x00#8, 0x01#8, 0x86#8, 0xA0#8] = .ok (.edge 0#8 100000#32, [])

/-- Every well-formed instruction's record decodes to it, whatever follows it in the stream, and the rest of the stream is left as it
stood (R70 to R73, R76). -/
def Obligations.DecodeReturnsEveryEncodedInstruction : Prop :=
  ∀ (i : Instr) (rest : List Byte), i.wellFormed = true → decode (encode i ++ rest) = .ok (i, rest)

/-- Whatever the decoder accepts is the record of a well-formed instruction and nothing else: each byte string has one reading, and its
length is the one the formats give (R72, R75, R76). -/
def Obligations.DecoderAcceptsOnlyEncodings : Prop :=
  ∀ (bs : List Byte) (i : Instr) (rest : List Byte), decode bs = .ok (i, rest) →
    i.wellFormed = true ∧ bs = encode i ++ rest ∧ (encode i).length = i.recordLength

/-- A byte outside the opcode map is refused, and so is a stream that begins with one; a byte of the map never is (R74). -/
def Obligations.ReservedOpcodesAreRefused : Prop :=
  ∀ (op : Byte) (rest : List Byte),
    ((op.toNat = 0x00 ∨ (0x06 ≤ op.toNat ∧ op.toNat ≤ 0x0F) ∨ (0x13 ≤ op.toNat ∧ op.toNat ≤ 0x1F) ∨ 0x22 ≤ op.toNat) ↔
      decode (op :: rest) = .error (.reservedOpcode op)) ∧
    (decode (op :: rest) = .error (.reservedOpcode op) →
      ∀ s : State, s.recordNext → s.stream = op :: rest → step s = .refused (.reservedOpcode op))

/-- Any proper prefix of a record is refused as truncated, and so is a stream that is one (R75). -/
def Obligations.TruncatedRecordsAreRefused : Prop :=
  ∀ (i : Instr) (k : Nat), i.wellFormed = true → k < i.recordLength →
    decode ((encode i).take k) = .error .truncated ∧
    ∀ s : State, s.recordNext → s.stream = (encode i).take k → step s = .refused .truncatedRecord

/-- `TAKE` and `EDGE` of an input that does not exist are refused, by the decoder and by the operations (R75). -/
def Obligations.MissingInputsAreRefused : Prop :=
  ∀ (i t3 t2 t1 t0 : Byte) (rest : List Byte), 2 ≤ i.toNat →
    decode (0x20#8 :: i :: rest) = .error (.noSuchInput i) ∧
    decode (0x21#8 :: i :: t3 :: t2 :: t1 :: t0 :: rest) = .error (.noSuchInput i) ∧
    ∀ s : State, s.ledMode ≠ .halted →
      exec (.take i) s = .refused (.noSuchInput i) ∧ ∀ now, exec (.edge i now) s = .refused (.noSuchInput i)

/-! ### The step -/

/-- When the stream's next record decodes to `i`, the step is `exec i`, after which the stream stands behind the record and the
stimulus position has moved by one; a fault or a refusal of `exec` is the step's (R21, R70, R82). That
it runs although a later record is invalid is the model's choice (log 22). -/
def Obligations.StepExecutesTheDecodedRecord : Prop :=
  ∀ (s : State) (i : Instr) (rest : List Byte), s.recordNext → decode s.stream = .ok (i, rest) →
    (∀ t, exec i s = .next t → step s = .next { t with stream := rest, spos := s.spos + 1 }) ∧
    (∀ f, exec i s = .fault f → step s = .fault f) ∧
    (∀ r, exec i s = .refused r → step s = .refused r)

/-- A stream of encoded instructions, with no input of the environment between them, runs as the instructions in order, one step each,
every one exactly once, and stops behind them (R70, R76, R82). That they run although `rest` is invalid is the model's choice (log 22). -/
def Obligations.StreamRunsItsRecordsInOrder : Prop :=
  ∀ (prog : List Instr) (rest : List Byte) (s t : State), (∀ i ∈ prog, i.wellFormed = true) → s.env = [] →
    s.stream = prog.flatMap encode ++ rest → execAll prog s = .next t →
    Host.Core.run Sys2Proof.core prog.length s = .next { t with stream := rest, spos := s.spos + prog.length }

/-- No operation touches the stimulus position, the stream, the environment's inputs or the ROMs (R21, R28, R66). -/
def Obligations.OperationsLeaveTheStreamAndRomsAlone : Prop :=
  ∀ (i : Instr) (s t : State), exec i s = .next t →
    t.spos = s.spos ∧ t.stream = s.stream ∧ t.env = s.env ∧ t.chanFree = s.chanFree ∧ t.rom = s.rom ∧ t.epoch = s.epoch

/-- Nothing writes the glyph ROMs, and a reset does not change them (R28). -/
def Obligations.NoStepChangesTheGlyphRoms : Prop :=
  ∀ s t : State, step s = .next t → t.rom = s.rom

/-- With nothing presented the block waits: the step changes nothing. The model's reading of R210 (log 2). -/
def Obligations.BlockWaitsForARecord : Prop :=
  ∀ s : State, s.ledMode ≠ .halted → s.stream = [] → s.env = [] → step s = .next s

/-- In Halted no command or event has a step, and the block has none unless the environment asserts `rst` (R181, I11). -/
def Obligations.HaltedHasNoStep : Prop :=
  ∀ s : State, s.ledMode = .halted →
    (∀ i : Instr, exec i s = .fault .halted) ∧
    ((∀ e ∈ s.env, e.input ≠ .rst) → step s = .fault .halted)

/-- The state after reset: the values the spec gives (R210). -/
def Obligations.ResetValues : Prop :=
  State.reset.ledMode = .uninit ∧ State.reset.halted = false ∧
  (∀ n, (State.reset.gate n).pending = false ∧ (State.reset.gate n).lastAccepted = 0#32 ∧ (State.reset.gate n).prev = true) ∧
  State.reset.queue = [] ∧ State.reset.shifter = [] ∧
  State.reset.ledOut = [] ∧ State.reset.dispOut = [] ∧ State.reset.takeOut = [] ∧ State.reset.spos = 0

/-- Asserting `rst` is a step, from every mode, that puts every piece of state at its reset value: the modes, gates, generator and traces
as in `ResetValues`, no framebuffer byte with a value of its own; the ROMs stand (R28, R210). -/
def Obligations.AssertedResetGivesResetValues : Prop :=
  ∀ (s : State) (e : Scheduled) (rest : List Scheduled), s.env = e :: rest → e.input = .rst →
    (s.ledMode = .halted ∨ e.due ≤ s.spos ∨ s.stream = []) →
    ∃ t, step s = .next t ∧ t.ledMode = .uninit ∧ t.halted = false ∧
      (∀ n, (t.gate n).pending = false ∧ (t.gate n).lastAccepted = 0#32 ∧ (t.gate n).prev = true) ∧
      t.queue = [] ∧ t.shifter = [] ∧ t.ledOut = [] ∧ t.dispOut = [] ∧ t.takeOut = [] ∧ t.spos = 0 ∧
      (∀ a, Memory.lookup t.fb a = none) ∧ t.rom = s.rom ∧ t.env = rest ∧ t.stream = s.stream

/-- A sample of pin `btn[n]`: `prev[n]` follows the level, and exactly a 0 to 1 transition runs the handler, that is `EDGE n`; a falling
edge or a steady level raises nothing and changes nothing else (R164). -/
def Obligations.RisingPinLevelRaisesTheEdge : Prop :=
  ∀ (s : State) (n : InputId) (k : Byte) (level : Bool) (now : Tick) (e : Scheduled) (rest : List Scheduled),
    s.ledMode ≠ .halted → inputOf k = some n → s.env = e :: rest → e.input = .sample n level now →
    (e.due ≤ s.spos ∨ s.stream = []) →
    let sampled := { s with env := rest }.setGate n { s.gate n with prev := level }
    step s = if (s.gate n).prev = false ∧ level = true then exec (.edge k now) sampled else .next sampled

/-- A change of the input `chan_free`: out of Halted the step sets the level and changes nothing else; in Halted, where the block handles
nothing, one that stands before the next `rst` stands right after it, so that the level is not lost (R10, R33, logs 3 and 12). -/
def Obligations.ChanFreeInputSetsTheLevel : Prop :=
  ∀ (s : State) (free : Bool) (e : Scheduled) (rest : List Scheduled), s.env = e :: rest → e.input = .chanFree free →
    (s.ledMode ≠ .halted → (e.due ≤ s.spos ∨ s.stream = []) → step s = .next { s with env := rest, chanFree := free }) ∧
    (∀ (r : Scheduled) (later : List Scheduled), s.ledMode = .halted → rest = r :: later → r.input = .rst →
      ∃ t, step s = .next t ∧ t.ledMode = .uninit ∧ t.env = { due := 0, input := .chanFree free } :: later)

/-! ### Modes and the configuration error -/

/-- Only `INIT` changes `led_mode`, and only out of Uninit: a step that leaves Uninit executes an `INIT` record, and no step leaves Ready or
Halted unless the environment asserts `rst`, which leads to Uninit (R23). -/
def Obligations.OnlyInitAndResetChangeTheMode : Prop :=
  (∀ (i : Instr) (s t : State), exec i s = .next t → t.ledMode ≠ s.ledMode →
    s.ledMode = .uninit ∧ ∃ pin, i = .init pin) ∧
  (∀ s t : State, step s = .next t → s.ledMode = .uninit → t.ledMode ≠ s.ledMode →
    s.recordNext ∧ ∃ pin rest u, decode s.stream = .ok (.init pin, rest) ∧ exec (.init pin) s = .next u ∧
      t = { u with stream := rest, spos := s.spos + 1 }) ∧
  (∀ s t : State, step s = .next t → s.ledMode ≠ .uninit → t.ledMode ≠ s.ledMode →
    t.ledMode = .uninit ∧ ∃ e ∈ s.env, e.input = .rst)

/-- `INIT`: with a channel it stores the pin, zeroes the frame, enters Ready and emits nothing; without one it takes `ConfigFatal`, which
writes nothing but the mode and after which no operation executes; a second `INIT` is refused; in Halted it has no step. The record is
opcode 0x01 and the pin (R103, R104). -/
def Obligations.InitClaimsTheChannelOrHalts : Prop :=
  ∀ (pin : Byte) (s : State),
    encode (.init pin) = [0x01#8, pin] ∧
    (s.ledMode = .uninit → s.chanFree = true →
      ∃ t, exec (.init pin) s = .next t ∧ t = { s with ledMode := .ready, ledPin := pin, px := t.px } ∧
        ∀ j, (h : j < Config.numPixels) → t.px[j] = { r := 0#8, g := 0#8, b := 0#8 }) ∧
    (s.ledMode = .uninit → s.chanFree = false →
      ∃ t, exec (.init pin) s = .next t ∧ t = { s with ledMode := .halted } ∧ t.halted = true ∧
        ∀ i, exec i t = .fault .halted) ∧
    (s.ledMode = .ready → exec (.init pin) s = .refused .alreadyInitialised) ∧
    (s.ledMode = .halted → exec (.init pin) s = .fault .halted)

/-- `SETPX`, `CLEAR`, `FLUSH` and `DIGIT` complete in Ready, are refused in Uninit; in Halted no operation has a step (R113). -/
def Obligations.LedCommandsNeedReady : Prop :=
  ∀ (s : State) (i : Instr),
    ((∃ idx r g b, i = .setpx idx r g b) ∨ i = .clear ∨ i = .flush ∨ ∃ v, i = .digit v) →
    (s.ledMode = .ready → ∃ t, exec i s = .next t) ∧
    (s.ledMode = .uninit → exec i s = .refused .ledNotReady) ∧
    (s.ledMode = .halted → ∀ j, exec j s = .fault .halted)

/-! ### LED Matrix Driver -/

/-- `SETPX` stores the colour at a physical index inside the frame and changes nothing else; an index outside it is rejected: the state
is unchanged and the run goes on. The record is opcode 0x02, the index, red, green, blue (R105). -/
def Obligations.SetpxStoresOnePixel : Prop :=
  ∀ (idx r g b : Byte) (s : State), s.ledMode = .ready →
    encode (.setpx idx r g b) = [0x02#8, idx, r, g, b] ∧
    (idx.toNat < 25 →
      ∃ t, exec (.setpx idx r g b) s = .next t ∧ t = { s with px := t.px } ∧
        ∀ j, (h : j < Config.numPixels) → t.px[j] = if j = idx.toNat then { r := r, g := g, b := b } else s.px[j]) ∧
    (25 ≤ idx.toNat → exec (.setpx idx r g b) s = .next s)

/-- `CLEAR` sets every pixel to `(0, 0, 0)` and changes nothing else; a second one changes nothing. The record is opcode 0x03
alone (R106). -/
def Obligations.ClearBlackensTheFrame : Prop :=
  ∀ s : State, s.ledMode = .ready →
    encode .clear = [0x03#8] ∧
    ∃ t, exec .clear s = .next t ∧ t = { s with px := t.px } ∧
      (∀ j, (h : j < Config.numPixels) → t.px[j] = { r := 0#8, g := 0#8, b := 0#8 }) ∧
      exec .clear t = .next t

/-- `FLUSH` appends 600 bit symbols and one LATCH to `led_out` and changes nothing else. Symbols `24·i` on are pixel `i`: green, then red,
then blue, each most significant bit first (R50, R51, R107). The generator is idle before, as it is at every command boundary (R31). -/
def Obligations.FlushSendsGreenRedBlueMsbFirst : Prop :=
  ∀ s : State, s.ledMode = .ready → s.queue = [] → s.shifter = [] →
    ∃ t bits, exec .flush s = .next t ∧ t = { s with ledOut := s.ledOut ++ bits ++ [LedSymbol.latch] } ∧ bits.length = 600 ∧
      ∀ i, (h : i < Config.numPixels) → ∀ k, k < 8 →
        bits[24 * i + k]? = some (bitSymbol (s.px[i].g.getLsbD (7 - k))) ∧
        bits[24 * i + 8 + k]? = some (bitSymbol (s.px[i].r.getLsbD (7 - k))) ∧
        bits[24 * i + 16 + k]? = some (bitSymbol (s.px[i].b.getLsbD (7 - k)))

/-- Two flushes of an unchanged frame append the same 601 symbols twice and leave the frame as it was; after a `CLEAR` those symbols are
600 times `B0` and the LATCH (R114 (b), (c)). -/
def Obligations.RepeatedFlushSendsTheSameStream : Prop :=
  ∀ s : State, s.ledMode = .ready → s.queue = [] → s.shifter = [] →
    (∃ t stream, execAll [.flush, .flush] s = .next t ∧ t = { s with ledOut := s.ledOut ++ stream ++ stream } ∧ stream.length = 601) ∧
    (∃ t, execAll [.clear, .flush] s = .next t ∧ t.ledOut = s.ledOut ++ List.replicate 600 LedSymbol.b0 ++ [LedSymbol.latch])

/-- For every queue depth of at least one entry, sending a frame from an idle generator leaves it idle and puts the same symbols in the
same order on the wire, and the queue never holds more than its depth on the way (R31, R107, R110). -/
def Obligations.QueueDepthIsUnobservable : Prop :=
  ∀ (depth : Nat) (px : Vector Color Config.numPixels) (out : List LedSymbol), 1 ≤ depth →
    Emitter.sendFrame depth px { queue := [], shifter := [], out := out } =
      { queue := [], shifter := [], out := out ++ px.toList.flatMap (fun c => sendByte c.g ++ sendByte c.r ++ sendByte c.b) ++ [LedSymbol.latch] } ∧
    ∀ n, ((px.toList.take n).foldl (Emitter.submit depth) { queue := [], shifter := [], out := out }).queue.length ≤ depth

/-- On a matrix of any width and height `phys` is a bijection onto the physical indices, with the stated inverse (R100, R101). -/
def Obligations.SerpentineMapIsABijection : Prop :=
  ∀ w h : Nat, 0 < w →
    (∀ x y, x < w → y < h →
      physOf w x y < w * h ∧ (y % 2 = 0 → physOf w x y = y * w + x) ∧ (y % 2 = 1 → physOf w x y = (y + 1) * w - 1 - x) ∧
      (physOf w x y / w = y) ∧ (if y % 2 = 0 then physOf w x y % w else w - 1 - physOf w x y % w) = x) ∧
    (∀ i, i < w * h →
      ∃ x y, x < w ∧ y < h ∧ physOf w x y = i ∧ y = i / w ∧ x = if y % 2 = 0 then i % w else w - 1 - i % w)

/-- `DIGIT v` for `v ≤ 9`: the pixel at each logical `(x, y)` is full red where bit `4 − x` of row `y` of the glyph is 1 and black where it
is 0, then the whole frame and a LATCH go out; nothing else changes. Above 9 the whole command is rejected (R55, R111). -/
def Obligations.DigitLightsItsGlyphInRed : Prop :=
  ∀ (v : Byte) (s : State), s.ledMode = .ready → s.queue = [] → s.shifter = [] →
    (∀ d : Fin 10, v.toNat = d.val →
      ∃ t, exec (.digit v) s = .next t ∧ t = { s with px := t.px, ledOut := s.ledOut ++ wireFrame t.px } ∧
        ∀ x y : Fin 5, t.px[physOf 5 x y]? =
          some (if (s.rom.digits[d])[y].getLsbD (4 - x) then { r := 255#8, g := 0#8, b := 0#8 } else { r := 0#8, g := 0#8, b := 0#8 })) ∧
    (9 < v.toNat → exec (.digit v) s = .next s)

/-- `DIGIT v` for `v ≤ 9` is `CLEAR`, then `SETPX phys(x, y), 255, 0, 0` for every set bit of the glyph, then `FLUSH` (R112). -/
def Obligations.DigitIsClearSetpxFlush : Prop :=
  ∀ (v : Byte) (s : State), s.ledMode = .ready → v.toNat ≤ 9 →
    exec (.digit v) s =
      execAll ([Instr.clear] ++
        (digitCells.filter fun p => digitBit s.rom v.toNat p.1 p.2).map
          (fun p => Instr.setpx (BitVec.ofNat 8 (physOf 5 p.1 p.2)) 255#8 0#8 0#8) ++
        [Instr.flush]) s

/-- The number of `B1` symbols a `DIGIT v` appends is 8 times the number of set bits of its glyph (R114 (e)). -/
def Obligations.DigitSendsEightOnesPerLitBit : Prop :=
  ∀ (v : Byte) (s : State), s.ledMode = .ready → s.queue = [] → s.shifter = [] → v.toNat ≤ 9 →
    ∃ t sent, exec (.digit v) s = .next t ∧ t.ledOut = s.ledOut ++ sent ∧
      sent.count .b1 = 8 * (digitCells.filter fun p => digitBit s.rom v.toNat p.1 p.2).length

/-- `DIGIT 5` with the source's glyph lights exactly the 17 physical indices of R111's example. The glyph is part of the machine's
invariant (R8). -/
def Obligations.DigitFiveLightsSeventeenPixels : Prop :=
  ∀ s : State, s.Inv → s.ledMode = .ready →
    ∃ t, exec (.digit 5#8) s = .next t ∧
      ∀ j, (h : j < Config.numPixels) → t.px[j] =
        if j ∈ [0, 1, 2, 3, 4, 9, 10, 11, 12, 13, 14, 15, 20, 21, 22, 23, 24] then { r := 255#8, g := 0#8, b := 0#8 }
        else { r := 0#8, g := 0#8, b := 0#8 }

/-! ### Bitmap Renderer -/

/-- `SetFbPixel(u, v)` inside the display ORs bit `v mod 8` into byte `(v div 8)·128 + u` and leaves every other byte; outside the display
it leaves the framebuffer as it is (R131). -/
def Obligations.PixelSetOrsOneBit : Prop :=
  ∀ (epoch : Nat) (u v : Int) (m : Memory),
    (0 ≤ u → u < 128 → 0 ≤ v → v < 64 →
      Memory.read epoch (setFbPixel epoch u v m) (v.toNat / 8 * 128 + u.toNat) =
        Memory.read epoch m (v.toNat / 8 * 128 + u.toNat) ||| (1#8 <<< (v.toNat % 8)) ∧
      ∀ a, a ≠ v.toNat / 8 * 128 + u.toNat → Memory.read epoch (setFbPixel epoch u v m) a = Memory.read epoch m a) ∧
    (u < 0 ∨ 128 ≤ u ∨ v < 0 ∨ 64 ≤ v → setFbPixel epoch u v m = m)

/-- The letters select the two glyph tables by their offset from `'A'` and `'a'`; every other code has no glyph, and drawing it changes
nothing (R130). -/
def Obligations.OnlyLettersHaveGlyphs : Prop :=
  (∀ (rom : Rom) (k : Fin 26),
    glyph rom (BitVec.ofNat 8 (0x41 + k.val)) = some rom.fontUpper[k] ∧
    glyph rom (BitVec.ofNat 8 (0x61 + k.val)) = some rom.fontLower[k]) ∧
  (∀ c : Byte, ¬ (0x41 ≤ c.toNat ∧ c.toNat ≤ 0x5A) → ¬ (0x61 ≤ c.toNat ∧ c.toNat ≤ 0x7A) →
    (∀ rom, glyph rom c = none) ∧
    ∀ (x y : Byte) (s : State), s.ledMode ≠ .halted → exec (.drawch x y c) s = .next s)

/-- `DRAWCH` turns on exactly the display pixels its glyph covers and leaves every other pixel and everything but the framebuffer as it
was; a byte that no covered pixel lies in reads as before. Pixels outside the display are clipped one by one (R132). -/
def Obligations.DrawchOrsTheGlyph : Prop :=
  ∀ (x y c : Byte) (s : State), s.ledMode ≠ .halted →
    ∃ t, exec (.drawch x y c) s = .next t ∧ t = { s with fb := t.fb } ∧
      (∀ u v : Nat, u < 128 → v < 64 → (t.pixelOn u v = true ↔ s.pixelOn u v = true ∨ inkAt s.rom c x.toNat y.toNat u v)) ∧
      (∀ a, (∀ u v : Nat, u < 128 → v < 64 → inkAt s.rom c x.toNat y.toNat u v → v / 8 * 128 + u ≠ a) → t.fbRead a = s.fbRead a)

/-- `DRAWSTR` turns on exactly the display pixels that its characters cover, each at its own cursor: 6 columns per character since the last
newline, 8 rows per newline, over the integers; every other pixel and everything but the framebuffer stays as it was (R133). -/
def Obligations.DrawstrDrawsEveryCharacterAtItsCursor : Prop :=
  ∀ (x y : Byte) (text : List Byte) (s : State), s.ledMode ≠ .halted →
    ∃ t, exec (.drawstr x y text) s = .next t ∧ t = { s with fb := t.fb } ∧
      (∀ u v : Nat, u < 128 → v < 64 → (t.pixelOn u v = true ↔ s.pixelOn u v = true ∨ textInkAt s.rom text x.toNat y.toNat u v)) ∧
      (∀ a, (∀ u v : Nat, u < 128 → v < 64 → textInkAt s.rom text x.toNat y.toNat u v → v / 8 * 128 + u ≠ a) → t.fbRead a = s.fbRead a)

/-- A text whose first part has no newline is that part, then the rest from six columns per character further on (R136 (d)). -/
def Obligations.TextDrawsPieceByPiece : Prop :=
  ∀ (epoch : Nat) (rom : Rom) (x y : Int) (front back : List Byte) (m : Memory), newline ∉ front → newline ∉ back →
    drawText epoch rom x x y (front ++ back) m =
      drawText epoch rom (x + 6 * front.length) (x + 6 * front.length) y back (drawText epoch rom x x y front m)

/-- `RENDER` replaces the framebuffer by the text alone, turning off every pixel the text does not cover, appends that whole buffer in
address order to `disp_out`, and changes nothing else (R134, R135). -/
def Obligations.RenderReplacesAndSendsTheFramebuffer : Prop :=
  ∀ (x y : Byte) (text : List Byte) (s : State), s.ledMode ≠ .halted →
    ∃ t f, exec (.render x y text) s = .next t ∧ t = { s with fb := t.fb, dispOut := s.dispOut ++ [f] } ∧
      (∀ u v : Nat, u < 128 → v < 64 → (t.pixelOn u v = true ↔ textInkAt s.rom text x.toNat y.toNat u v)) ∧
      f.length = 1024 ∧ ∀ a, a < 1024 → f[a]? = some (t.fbRead a)

/-- `RENDER` leaves the same bytes as `DRAWSTR` of the same operands on an all-zero framebuffer (R136 (c)). -/
def Obligations.RenderIsDrawstrOnABlankBuffer : Prop :=
  ∀ (x y : Byte) (text : List Byte) (s z t t' : State), z.rom = s.rom → (∀ a, a < 1024 → z.fbRead a = 0#8) →
    exec (.render x y text) s = .next t → exec (.drawstr x y text) z = .next t' →
    ∀ a, a < 1024 → t.fbRead a = t'.fbRead a

/-- What `RENDER` leaves in the framebuffer and sends does not depend on what the framebuffer held before, written or not (R134, R211). -/
def Obligations.RenderForgetsTheOldFramebuffer : Prop :=
  ∀ (x y : Byte) (text : List Byte) (s₁ s₂ t₁ t₂ : State), s₁.rom = s₂.rom →
    exec (.render x y text) s₁ = .next t₁ → exec (.render x y text) s₂ = .next t₂ →
    t₁.fb = t₂.fb ∧ t₁.dispOut.getLast? = t₂.dispOut.getLast?

/-! ### Debounce Gate -/

/-- `EDGE i`: with the tick difference modulo 2^32 below 50000 nothing changes; otherwise the tick is recorded and `pending[i]` set, and
nothing else changes. The record is opcode 0x21, the input, then the tick, most significant byte first (R161). -/
def Obligations.EdgeWindowTest : Prop :=
  ∀ (now : Tick) (s : State), s.ledMode ≠ .halted →
    (∀ i, encode (.edge i now) =
      [0x21#8, i, now.extractLsb' 24 8, now.extractLsb' 16 8, now.extractLsb' 8 8, now.extractLsb' 0 8]) ∧
    ((now.toNat + 2 ^ 32 - s.gate0.lastAccepted.toNat) % 2 ^ 32 < 50000 → exec (.edge 0#8 now) s = .next s) ∧
    (50000 ≤ (now.toNat + 2 ^ 32 - s.gate0.lastAccepted.toNat) % 2 ^ 32 →
      exec (.edge 0#8 now) s = .next { s with gate0 := { s.gate0 with lastAccepted := now, pending := true } }) ∧
    ((now.toNat + 2 ^ 32 - s.gate1.lastAccepted.toNat) % 2 ^ 32 < 50000 → exec (.edge 1#8 now) s = .next s) ∧
    (50000 ≤ (now.toNat + 2 ^ 32 - s.gate1.lastAccepted.toNat) % 2 ^ 32 →
      exec (.edge 1#8 now) s = .next { s with gate1 := { s.gate1 with lastAccepted := now, pending := true } })

/-- `TAKE i` answers `pending[i]` and clears it in the same step; the other input, the timestamps and everything else stay. The record
is opcode 0x20 and the input (R162). -/
def Obligations.TakeAnswersAndClears : Prop :=
  ∀ s : State, s.ledMode ≠ .halted →
    (∀ i, encode (.take i) = [0x20#8, i]) ∧
    exec (.take 0#8) s =
      .next { s with takeOut := s.takeOut ++ [s.gate0.pending], gate0 := { s.gate0 with pending := false } } ∧
    exec (.take 1#8) s =
      .next { s with takeOut := s.takeOut ++ [s.gate1.pending], gate1 := { s.gate1 with pending := false } }

/-- A take and an edge of the same input next to each other, in either order, lose no event. Take first, which is the same-cycle rule:
`pending' = accept OR (pending AND NOT take)` and the answer is the value before. Edge first: an accepted edge is the answer (R62, R163). -/
def Obligations.SetWinsOverClear : Prop :=
  ∀ (k : Byte) (n : InputId) (now : Tick) (s : State), s.ledMode ≠ .halted → inputOf k = some n →
    ∃ t t', execAll [.take k, .edge k now] s = .next t ∧ execAll [.edge k now, .take k] s = .next t' ∧
      (t.gate n).pending = (acceptsEdge n (.edge k now) s || ((s.gate n).pending && !true)) ∧
      t.takeOut = s.takeOut ++ [(s.gate n).pending] ∧
      (t'.gate n).pending = false ∧
      t'.takeOut = s.takeOut ++ [acceptsEdge n (.edge k now) s || (s.gate n).pending]

/-- Edges of the two inputs commute (R60 (c), R187). -/
def Obligations.EdgesOfDifferentInputsCommute : Prop :=
  ∀ (a b : Tick) (s : State), s.ledMode ≠ .halted →
    ∃ t, execAll [.edge 0#8 a, .edge 1#8 b] s = .next t ∧ execAll [.edge 1#8 b, .edge 0#8 a] s = .next t

/-- An edge commutes with every operation but `TAKE` and `EDGE` of its own input, as long as the operation does not halt the block: where
an edge falls between commands cannot be seen otherwise (R11, R60 (d)). -/
def Obligations.EdgeCommutesWithOtherOperations : Prop :=
  ∀ (k : Byte) (n : InputId) (now : Tick) (i : Instr) (s : State), inputOf k = some n →
    (∀ j, i = .take j → inputOf j ≠ some n) → (∀ j now', i = .edge j now' → inputOf j ≠ some n) →
    (∀ t, exec i s = .next t → t.ledMode ≠ .halted) →
    execAll [.edge k now, i] s = execAll [i, .edge k now] s

/-- Two consecutive accepted edges of one input are at least 50000 ticks apart modulo 2^32: after an edge accepted at `a`, and any
operations in which that input accepts none, an edge at `b` is accepted exactly when it is that far from `a` (R165 (b)). -/
def Obligations.ConsecutiveAcceptedEdgesAreAWindowApart : Prop :=
  ∀ (k : Byte) (n : InputId) (a b : Tick) (between : List Instr) (s t t' : State), inputOf k = some n →
    acceptsEdge n (.edge k a) s = true → exec (.edge k a) s = .next t →
    execAll between t = .next t' → acceptedEdges n between t = 0 →
    (acceptsEdge n (.edge k b) t' = true ↔ 50000 ≤ (b.toNat + 2 ^ 32 - a.toNat) % 2 ^ 32)

/-- Events are never duplicated: over any operations each `TAKE` answers once, and for each input the `true` answers and the event still
pending number at most that input's accepted edges and its event pending at the start (R165 (a), (c)). -/
def Obligations.EventsAreNeverDuplicated : Prop :=
  ∀ (ops : List Instr) (s t : State), execAll ops s = .next t →
    ∃ answers, t.takeOut = s.takeOut ++ answers ∧ answers.length = (takeOperands ops).length ∧
      ∀ n, trueAnswers n (takeOperands ops) answers + (t.gate n).pending.toNat ≤
        acceptedEdges n ops s + (s.gate n).pending.toNat

/-! ### Whole-machine rules -/

/-- Ownership: each operation writes only what the spec lets it write. `EDGE` writes gates alone, `TAKE` gates and its answer; no other
operation touches a gate; the LED commands alone write the LED Frame, `led_out` and `led_mode`; the renderer alone writes the
framebuffer (R20, R64). -/
def Obligations.EachOperationWritesOnlyWhatItOwns : Prop :=
  ∀ (i : Instr) (s t : State), exec i s = .next t →
    match i with
    | .init _ => t = { s with px := t.px, ledPin := t.ledPin, ledMode := t.ledMode }
    | .setpx _ _ _ _ => t = { s with px := t.px }
    | .clear => t = { s with px := t.px }
    | .flush => t = { s with queue := t.queue, shifter := t.shifter, ledOut := t.ledOut }
    | .digit _ => t = { s with px := t.px, queue := t.queue, shifter := t.shifter, ledOut := t.ledOut }
    | .drawch _ _ _ => t = { s with fb := t.fb }
    | .drawstr _ _ _ => t = { s with fb := t.fb }
    | .render _ _ _ => t = { s with fb := t.fb, dispOut := t.dispOut }
    | .take k => ∃ n, inputOf k = some n ∧ t = { s.setGate n { s.gate n with pending := false } with takeOut := t.takeOut }
    | .edge k _ => ∃ (n : InputId) (g : Gate), inputOf k = some n ∧ t = s.setGate n { g with prev := (s.gate n).prev }

/-- What has left the block is never taken back: every operation leaves the three output traces as they were or longer (R12). -/
def Obligations.OutputsOnlyGrow : Prop :=
  ∀ (i : Instr) (s t : State), exec i s = .next t →
    s.ledOut <+: t.ledOut ∧ s.dispOut <+: t.dispOut ∧ s.takeOut <+: t.takeOut

/-- Every step keeps the invariant: canonical framebuffer, the source's digit 5, an idle generator at every boundary, whole frames on the LED
wire and none before Ready, whole frames to the display (R29, R31, R58, R107, R135). -/
def Obligations.EveryStepKeepsTheInvariant : Prop :=
  ∀ s t : State, s.Inv → step s = .next t → t.Inv

/-- The invariant holds right after reset. -/
def Obligations.ResetMeetsTheInvariant : Prop :=
  State.reset.Inv
end

