-- ==== Sys2Proof/Laws/State.lean ====
section
/-! SUPPORT. What each shared update of the state leaves in each field, so that no proof unfolds a record update. -/

namespace Sys2Proof.Machine

/-! ### Gates -/

@[simp] theorem State.gate_in0 (s : State) : s.gate .in0 = s.gate0 := rfl
@[simp] theorem State.gate_in1 (s : State) : s.gate .in1 = s.gate1 := rfl
@[simp] theorem State.setGate_in0 (s : State) (g : Gate) : s.setGate .in0 g = { s with gate0 := g } := rfl
@[simp] theorem State.setGate_in1 (s : State) (g : Gate) : s.setGate .in1 g = { s with gate1 := g } := rfl

@[simp] theorem State.gate_setGate_same (s : State) (i : InputId) (g : Gate) : (s.setGate i g).gate i = g := by
  cases i <;> rfl

theorem State.gate_setGate_ne (s : State) {i j : InputId} (g : Gate) (h : j ≠ i) : (s.setGate i g).gate j = s.gate j := by
  cases i <;> cases j <;> first | rfl | exact absurd rfl h

@[simp] theorem State.setGate_gate (s : State) (i : InputId) : s.setGate i (s.gate i) = s := by cases i <;> rfl

@[simp] theorem State.setGate_px (s : State) (i : InputId) (g : Gate) : (s.setGate i g).px = s.px := by cases i <;> rfl
@[simp] theorem State.setGate_ledMode (s : State) (i : InputId) (g : Gate) : (s.setGate i g).ledMode = s.ledMode := by cases i <;> rfl
@[simp] theorem State.setGate_ledPin (s : State) (i : InputId) (g : Gate) : (s.setGate i g).ledPin = s.ledPin := by cases i <;> rfl
@[simp] theorem State.setGate_fb (s : State) (i : InputId) (g : Gate) : (s.setGate i g).fb = s.fb := by cases i <;> rfl
@[simp] theorem State.setGate_rom (s : State) (i : InputId) (g : Gate) : (s.setGate i g).rom = s.rom := by cases i <;> rfl
@[simp] theorem State.setGate_queue (s : State) (i : InputId) (g : Gate) : (s.setGate i g).queue = s.queue := by cases i <;> rfl
@[simp] theorem State.setGate_shifter (s : State) (i : InputId) (g : Gate) : (s.setGate i g).shifter = s.shifter := by cases i <;> rfl
@[simp] theorem State.setGate_ledOut (s : State) (i : InputId) (g : Gate) : (s.setGate i g).ledOut = s.ledOut := by cases i <;> rfl
@[simp] theorem State.setGate_dispOut (s : State) (i : InputId) (g : Gate) : (s.setGate i g).dispOut = s.dispOut := by cases i <;> rfl
@[simp] theorem State.setGate_takeOut (s : State) (i : InputId) (g : Gate) : (s.setGate i g).takeOut = s.takeOut := by cases i <;> rfl
@[simp] theorem State.setGate_spos (s : State) (i : InputId) (g : Gate) : (s.setGate i g).spos = s.spos := by cases i <;> rfl
@[simp] theorem State.setGate_stream (s : State) (i : InputId) (g : Gate) : (s.setGate i g).stream = s.stream := by cases i <;> rfl
@[simp] theorem State.setGate_env (s : State) (i : InputId) (g : Gate) : (s.setGate i g).env = s.env := by cases i <;> rfl
@[simp] theorem State.setGate_chanFree (s : State) (i : InputId) (g : Gate) : (s.setGate i g).chanFree = s.chanFree := by cases i <;> rfl
@[simp] theorem State.setGate_epoch (s : State) (i : InputId) (g : Gate) : (s.setGate i g).epoch = s.epoch := by cases i <;> rfl

/-! ### Traces, modes, the generator, reset -/

@[simp] theorem respond_takeOut (b : Bool) (s : State) : (respond b s).takeOut = s.takeOut ++ [b] := rfl
@[simp] theorem respond_gate (b : Bool) (s : State) (i : InputId) : (respond b s).gate i = s.gate i := by cases i <;> rfl
@[simp] theorem respond_ledMode (b : Bool) (s : State) : (respond b s).ledMode = s.ledMode := rfl
@[simp] theorem transfer_dispOut (s : State) : (transfer s).dispOut = s.dispOut ++ [frameBytes s.epoch s.fb] := by
  simp only [transfer]
@[simp] theorem transfer_fb (s : State) : (transfer s).fb = s.fb := by
  simp only [transfer]
@[simp] theorem transfer_px (s : State) : (transfer s).px = s.px := by
  simp only [transfer]
@[simp] theorem transfer_ledMode (s : State) : (transfer s).ledMode = s.ledMode := by
  simp only [transfer]
@[simp] theorem transfer_gate0 (s : State) : (transfer s).gate0 = s.gate0 := by
  simp only [transfer]
@[simp] theorem transfer_gate1 (s : State) : (transfer s).gate1 = s.gate1 := by
  simp only [transfer]
@[simp] theorem transfer_ledOut (s : State) : (transfer s).ledOut = s.ledOut := by
  simp only [transfer]
@[simp] theorem transfer_takeOut (s : State) : (transfer s).takeOut = s.takeOut := by
  simp only [transfer]
@[simp] theorem transfer_queue (s : State) : (transfer s).queue = s.queue := by
  simp only [transfer]
@[simp] theorem transfer_shifter (s : State) : (transfer s).shifter = s.shifter := by
  simp only [transfer]
@[simp] theorem transfer_rom (s : State) : (transfer s).rom = s.rom := by
  simp only [transfer]
@[simp] theorem transfer_epoch (s : State) : (transfer s).epoch = s.epoch := by
  simp only [transfer]
@[simp] theorem raiseConfigFatal_ledMode (s : State) : (raiseConfigFatal s).ledMode = .halted := rfl
@[simp] theorem raiseConfigFatal_px (s : State) : (raiseConfigFatal s).px = s.px := rfl
@[simp] theorem raiseConfigFatal_ledPin (s : State) : (raiseConfigFatal s).ledPin = s.ledPin := rfl
@[simp] theorem setEmitter_queue (s : State) (e : Emitter) : (s.setEmitter e).queue = e.queue := rfl
@[simp] theorem setEmitter_shifter (s : State) (e : Emitter) : (s.setEmitter e).shifter = e.shifter := rfl
@[simp] theorem setEmitter_ledOut (s : State) (e : Emitter) : (s.setEmitter e).ledOut = e.out := rfl
@[simp] theorem setEmitter_px (s : State) (e : Emitter) : (s.setEmitter e).px = s.px := rfl
@[simp] theorem setEmitter_ledMode (s : State) (e : Emitter) : (s.setEmitter e).ledMode = s.ledMode := rfl
@[simp] theorem assertReset_ledMode (s : State) : (assertReset s).ledMode = .uninit := by
  unfold assertReset; rfl
@[simp] theorem assertReset_gate (s : State) (i : InputId) : (assertReset s).gate i = Gate.reset := by cases i <;> rfl
@[simp] theorem assertReset_rom (s : State) : (assertReset s).rom = s.rom := by
  unfold assertReset; rfl
@[simp] theorem assertReset_fb (s : State) : (assertReset s).fb = [] := by
  unfold assertReset; rfl
@[simp] theorem assertReset_ledOut (s : State) : (assertReset s).ledOut = [] := by
  unfold assertReset; rfl
@[simp] theorem assertReset_dispOut (s : State) : (assertReset s).dispOut = [] := by
  unfold assertReset; rfl
@[simp] theorem assertReset_takeOut (s : State) : (assertReset s).takeOut = [] := by
  unfold assertReset; rfl
@[simp] theorem assertReset_queue (s : State) : (assertReset s).queue = [] := by
  unfold assertReset; rfl
@[simp] theorem assertReset_shifter (s : State) : (assertReset s).shifter = [] := by
  unfold assertReset; rfl
@[simp] theorem assertReset_spos (s : State) : (assertReset s).spos = 0 := by
  unfold assertReset; rfl
@[simp] theorem assertReset_env (s : State) : (assertReset s).env = s.env := by
  unfold assertReset; rfl
@[simp] theorem assertReset_stream (s : State) : (assertReset s).stream = s.stream := by
  unfold assertReset; rfl
@[simp] theorem assertReset_chanFree (s : State) : (assertReset s).chanFree = s.chanFree := by
  unfold assertReset; rfl
@[simp] theorem assertReset_epoch (s : State) : (assertReset s).epoch = s.epoch + 1 := by
  unfold assertReset; rfl

/-! ### Which mode lets an operation run -/

/-- Out of Halted, `whenLive` is what it guards. -/
theorem whenLive_of_live {s : State} (h : s.ledMode ≠ .halted) (k : Result) : whenLive s k = k := by
  unfold whenLive; cases hm : s.ledMode <;> simp_all

@[simp] theorem whenLive_of_halted {s : State} (h : s.ledMode = .halted) (k : Result) : whenLive s k = .fault .halted := by
  simp [whenLive, h]

@[simp] theorem whenReady_of_ready {s : State} (h : s.ledMode = .ready) (k : Result) : whenReady s k = k := by
  simp [whenReady, h]

@[simp] theorem whenReady_of_uninit {s : State} (h : s.ledMode = .uninit) (k : Result) : whenReady s k = .refused .ledNotReady := by
  simp [whenReady, h]

@[simp] theorem whenReady_of_halted {s : State} (h : s.ledMode = .halted) (k : Result) : whenReady s k = .fault .halted := by
  simp [whenReady, h]

/-- `whenLive` answers a next state only out of Halted, and then what it guards does. -/
theorem whenLive_next {s t : State} {k : Result} (h : whenLive s k = .next t) : s.ledMode ≠ .halted ∧ k = .next t := by
  unfold whenLive at h; cases hm : s.ledMode <;> simp_all

/-- `whenReady` answers a next state only in Ready, and then what it guards does. -/
theorem whenReady_next {s t : State} {k : Result} (h : whenReady s k = .next t) : s.ledMode = .ready ∧ k = .next t := by
  unfold whenReady at h; cases hm : s.ledMode <;> simp_all

end Sys2Proof.Machine
end

