-- ==== Sys2Proof/Laws/Debounce.lean ====
section
/-! SUPPORT. The gates: what an edge, a take and a sample leave in each of their registers. -/

namespace Sys2Proof.Machine

/-- The window test over the numbers (R161). -/
theorem edgeAccepted_iff (now last : Tick) :
    edgeAccepted now last = true ↔ 50000 ≤ (now.toNat + 2 ^ 32 - last.toNat) % 2 ^ 32 := by
  have h : (now - last).toNat = (now.toNat + 2 ^ 32 - last.toNat) % 2 ^ 32 := by
    rw [BitVec.toNat_sub]; congr 1; omega
  simp only [edgeAccepted, edgeDelta, h, Bool.not_eq_true', decide_eq_false_iff_not, Nat.not_lt, Config.window,
    Config.debounceMs, Config.ticksPerMs]

theorem edgeAccepted_eq_false_iff (now last : Tick) :
    edgeAccepted now last = false ↔ (now.toNat + 2 ^ 32 - last.toNat) % 2 ^ 32 < 50000 := by
  rw [← Bool.not_eq_true, edgeAccepted_iff]; omega

/-- The set wins over the clear (R62). -/
@[simp] theorem nextPending_set (p t : Bool) : nextPending true p t = true := rfl
@[simp] theorem nextPending_clear (p : Bool) : nextPending false p true = false := by cases p <;> rfl
@[simp] theorem nextPending_keep (p : Bool) : nextPending false p false = p := by cases p <;> rfl

/-- An accepted edge (R161). -/
theorem Gate.onEdge_accepted {g : Gate} {now : Tick} (h : edgeAccepted now g.lastAccepted = true) :
    g.onEdge now = { g with lastAccepted := now, pending := true } := by simp [onEdge, h]

/-- A discarded edge writes nothing (R161). -/
theorem Gate.onEdge_discarded {g : Gate} {now : Tick} (h : edgeAccepted now g.lastAccepted = false) : g.onEdge now = g := by
  simp [onEdge, h]

@[simp] theorem Gate.onEdge_prev (g : Gate) (now : Tick) : (g.onEdge now).prev = g.prev := by unfold onEdge; split <;> rfl

theorem Gate.onEdge_pending (g : Gate) (now : Tick) :
    (g.onEdge now).pending = (edgeAccepted now g.lastAccepted || g.pending) := by
  unfold onEdge; split <;> simp_all

theorem Gate.onEdge_lastAccepted (g : Gate) (now : Tick) :
    (g.onEdge now).lastAccepted = if edgeAccepted now g.lastAccepted then now else g.lastAccepted := by
  unfold onEdge; split <;> rfl

@[simp] theorem Gate.onTake_pending (g : Gate) : g.onTake.pending = false := by simp [onTake]
@[simp] theorem Gate.onTake_lastAccepted (g : Gate) : g.onTake.lastAccepted = g.lastAccepted := rfl
@[simp] theorem Gate.onTake_prev (g : Gate) : g.onTake.prev = g.prev := rfl
theorem Gate.onTake_eq (g : Gate) : g.onTake = { g with pending := false } := by simp [onTake]

/-- The two input numbers. -/
theorem inputOf_eq_some {k : Byte} {n : InputId} : inputOf k = some n ↔ k = (match n with | .in0 => 0#8 | .in1 => 1#8) := by
  unfold inputOf
  constructor
  · intro h
    split at h
    · cases h; apply BitVec.eq_of_toNat_eq; simpa
    · split at h
      · cases h; apply BitVec.eq_of_toNat_eq; simpa
      · cases h
  · rintro rfl; cases n <;> rfl

theorem inputOf_eq_none {k : Byte} : inputOf k = none ↔ 2 ≤ k.toNat := by
  unfold inputOf
  split
  · simp; omega
  · split
    · simp; omega
    · simp; omega

/-- A meaning on an input answers a next state only on an input that exists. -/
theorem withInput_next {k : Byte} {f : InputId → Result} {t : State} (h : withInput k f = .next t) :
    ∃ n, inputOf k = some n ∧ f n = .next t := by
  unfold withInput at h
  cases hk : inputOf k with
  | none => rw [hk] at h; cases h
  | some n => rw [hk] at h; exact ⟨n, rfl, h⟩

theorem withInput_of_some {k : Byte} {n : InputId} (h : inputOf k = some n) (f : InputId → Result) : withInput k f = f n := by
  unfold withInput; rw [h]

theorem withInput_of_none {k : Byte} (h : inputOf k = none) (f : InputId → Result) :
    withInput k f = .refused (.noSuchInput k) := by
  unfold withInput; rw [h]

end Sys2Proof.Machine
end

