-- ==== Sys2Proof/Laws/Decode.lean ====
section
/-! SUPPORT. The opcode map and the operand readers, one lemma each. -/

namespace Sys2Proof

/-- The opcode map is one to one (R73). -/
theorem Opcode.ofByte_byte (o : Opcode) : Opcode.ofByte o.byte = some o := by cases o <;> rfl

/-- Whatever byte selects an operation is its opcode byte (R73). -/
theorem Opcode.byte_of_ofByte {b : Byte} {o : Opcode} (h : Opcode.ofByte b = some o) : b = o.byte := by
  unfold ofByte at h
  have hb : (o.byte == b) = true := List.find?_some (p := fun o : Opcode => o.byte == b) h
  exact (beq_iff_eq.mp hb).symm

/-- The reserved opcode bytes, as R74 lists them. -/
theorem Opcode.ofByte_eq_none_iff (b : Byte) : Opcode.ofByte b = none ↔
    (b.toNat = 0x00 ∨ (0x06 ≤ b.toNat ∧ b.toNat ≤ 0x0F) ∨ (0x13 ≤ b.toNat ∧ b.toNat ≤ 0x1F) ∨ 0x22 ≤ b.toNat) := by
  revert b; decide

/-- Bit `i` of a tick put together from its four bytes (R71). -/
theorem tickOfBytes_getLsbD (t3 t2 t1 t0 : Byte) (i : Nat) : (tickOfBytes t3 t2 t1 t0).getLsbD i =
    if i < 8 then t0.getLsbD i else if i < 16 then t1.getLsbD (i - 8) else if i < 24 then t2.getLsbD (i - 16)
    else t3.getLsbD (i - 24) := by
  unfold tickOfBytes
  simp only [BitVec.getLsbD_append]
  by_cases h₀ : i < 8
  · simp [h₀]
  · by_cases h₁ : i < 16
    · simp [h₀, h₁, show i - 8 < 8 from by omega]
    · by_cases h₂ : i < 24
      · simp [h₀, h₁, h₂, show ¬ i - 8 < 8 from by omega, show i - 8 - 8 = i - 16 from by omega, show i - 16 < 8 from by omega]
      · simp [h₀, h₁, h₂, show ¬ i - 8 < 8 from by omega, show ¬ i - 8 - 8 < 8 from by omega,
          show i - 8 - 8 - 8 = i - 24 from by omega]

/-- Bit `i` of byte `k` of a tick. -/
theorem tickByte_getLsbD (t : Tick) (k i : Nat) : (tickByte t k).getLsbD i = (decide (i < 8) && t.getLsbD (8 * k + i)) := by
  unfold tickByte
  rw [BitVec.getLsbD_extractLsb']

/-- The four bytes of a tick give it back (R71). -/
theorem tickOfBytes_tickByte (t : Tick) : tickOfBytes (tickByte t 3) (tickByte t 2) (tickByte t 1) (tickByte t 0) = t := by
  apply BitVec.eq_of_getLsbD_eq
  intro i hi
  rw [tickOfBytes_getLsbD]
  simp only [tickByte_getLsbD]
  by_cases h₀ : i < 8
  · simp [h₀]
  · by_cases h₁ : i < 16
    · simp [h₀, h₁, show i - 8 < 8 from by omega, show 8 + (i - 8) = i from by omega]
    · by_cases h₂ : i < 24
      · simp [h₀, h₁, h₂, show i - 16 < 8 from by omega, show 16 + (i - 16) = i from by omega]
      · simp [h₀, h₁, h₂, show i - 24 < 8 from by omega, show 24 + (i - 24) = i from by omega]

/-- The bytes of a tick that was put together from four are those four (R71). -/
theorem tickByte_tickOfBytes (t3 t2 t1 t0 : Byte) :
    tickByte (tickOfBytes t3 t2 t1 t0) 3 = t3 ∧ tickByte (tickOfBytes t3 t2 t1 t0) 2 = t2 ∧
    tickByte (tickOfBytes t3 t2 t1 t0) 1 = t1 ∧ tickByte (tickOfBytes t3 t2 t1 t0) 0 = t0 := by
  refine ⟨?_, ?_, ?_, ?_⟩ <;>
    (apply BitVec.eq_of_getLsbD_eq
     intro i hi
     rw [tickByte_getLsbD, tickOfBytes_getLsbD])
  · simp [hi, show ¬ 24 + i < 8 from by omega, show ¬ 24 + i < 16 from by omega]
  · simp [hi, show ¬ 16 + i < 8 from by omega, show 16 + i < 24 from by omega]
  · simp [hi, show 8 + i < 16 from by omega]
  · simp [hi]

/-- Reading the four formats without a check (R72). -/
@[simp] theorem readZ_eq (i : Instr) (bs : List Byte) : readZ i bs = .ok (i, bs) := rfl
@[simp] theorem readB_cons (mk : Byte → Instr) (a : Byte) (rest : List Byte) : readB mk (a :: rest) = .ok (mk a, rest) := rfl
@[simp] theorem readP_cons (mk : Byte → Byte → Byte → Byte → Instr) (i r g b : Byte) (rest : List Byte) :
    readP mk (i :: r :: g :: b :: rest) = .ok (mk i r g b, rest) := rfl
@[simp] theorem readC_cons (mk : Byte → Byte → Byte → Instr) (x y c : Byte) (rest : List Byte) :
    readC mk (x :: y :: c :: rest) = .ok (mk x y c, rest) := rfl

/-- Reading a text that fits its length byte (R71, R76). -/
theorem readS_text (mk : Byte → Byte → List Byte → Instr) (x y : Byte) (text rest : List Byte) (h : text.length ≤ 255) :
    readS mk (x :: y :: BitVec.ofNat 8 text.length :: (text ++ rest)) = .ok (mk x y text, rest) := by
  have hl : (BitVec.ofNat 8 text.length).toNat = text.length := by simp; omega
  simp [readS, hl]

/-- Reading an input that exists (R75). -/
theorem readInput_of_exists (mk : Byte → Instr) {i : Byte} (rest : List Byte) (h : inputExists i = true) :
    readInput mk (i :: rest) = .ok (mk i, rest) := by simp [readInput, h]

/-- Reading an input and a tick (R71, R75). -/
theorem readT_of_exists (mk : Byte → Tick → Instr) {i : Byte} (t : Tick) (rest : List Byte) (h : inputExists i = true) :
    readT mk (i :: tickByte t 3 :: tickByte t 2 :: tickByte t 1 :: tickByte t 0 :: rest) = .ok (mk i t, rest) := by
  simp [readT, h, tickOfBytes_tickByte]

/-- The operand readers reject a record as truncated or for its input, never for its opcode (R74, R75). -/
theorem readOperands_ne_reserved (o : Opcode) (bs : List Byte) (op : Byte) :
    readOperands o bs ≠ .error (.reservedOpcode op) := by
  cases o <;> simp only [readOperands] <;>
    first
    | (unfold readZ; exact fun h => nomatch h)
    | (unfold readB; split <;> exact fun h => nomatch h)
    | (unfold readP; split <;> exact fun h => nomatch h)
    | (unfold readC; split <;> exact fun h => nomatch h)
    | (unfold readS; split <;> [(split <;> exact fun h => nomatch h); exact fun h => nomatch h])
    | (unfold readInput; split <;> [(split <;> exact fun h => nomatch h); exact fun h => nomatch h])
    | (unfold readT; split <;> [(split <;> exact fun h => nomatch h); exact fun h => nomatch h])

/-- A byte of the opcode map is read by its format (R72, R73). -/
theorem decode_cons_byte (o : Opcode) (rest : List Byte) : decode (o.byte :: rest) = readOperands o rest := by
  simp [decode, Opcode.ofByte_byte]

/-- A byte outside the opcode map is rejected by name (R74). -/
theorem decode_cons_reserved {op : Byte} (h : Opcode.ofByte op = none) (rest : List Byte) :
    decode (op :: rest) = .error (.reservedOpcode op) := by
  simp only [decode, h]

/-- A record begins with its opcode byte, so the decoder reads it by its format (R72). -/
theorem decode_encode_append (i : Instr) (rest : List Byte) :
    decode (encode i ++ rest) = readOperands i.opcode (i.operands ++ rest) := by
  simp [decode, encode, Opcode.ofByte_byte]

end Sys2Proof
end

