-- ==== Sys2Proof/Laws/Memory.lean ====
section
/-! SUPPORT. The framebuffer's list of bytes: read after write, the canonical form that every memory operation keeps, and that the
canonical form makes equal memories equal data. -/

namespace Sys2Proof.Machine

/-- Looking an address up after an insert. -/
theorem Memory.lookup_insert (a : Nat) (v : Byte) (m : Memory) (b : Nat) :
    Memory.lookup (Memory.insert a v m) b = if b = a then some v else Memory.lookup m b := by
  induction m with
  | nil => simp [insert, lookup, eq_comm]
  | cons c rest ih =>
    obtain ⟨k, w⟩ := c
    by_cases h₁ : a < k
    · simp only [insert, h₁, if_true, lookup]
      by_cases h : a = b
      · simp [h]
      · simp [h, Ne.symm h]
    · by_cases h₂ : a = k
      · subst h₂
        by_cases h : a = b
        · simp [insert, lookup, h]
        · simp [insert, lookup, h, Ne.symm h]
      · simp only [insert, h₁, h₂, if_false, lookup, ih]
        by_cases h : k = b
        · have : b ≠ a := by omega
          simp [h, this]
        · simp [h]

/-- An insert of a new address between the bound and `FB_BYTES` keeps the list sorted. -/
theorem Memory.sortedFrom_insert {a : Nat} (v : Byte) (ha : a < Config.fbBytes) :
    ∀ (m : Memory) (bound : Option Nat), (∀ b, bound = some b → b < a) → Memory.sortedFrom bound m = true →
      Memory.sortedFrom bound (Memory.insert a v m) = true := by
  intro m
  induction m with
  | nil => intro bound hb _; cases bound <;> simp_all [insert, sortedFrom]
  | cons c rest ih =>
    obtain ⟨k, w⟩ := c
    intro bound hb hs
    simp only [sortedFrom, Bool.and_eq_true, decide_eq_true_eq] at hs
    obtain ⟨⟨hbk, hk⟩, hrest⟩ := hs
    by_cases h₁ : a < k
    · cases bound <;> simp_all [insert, sortedFrom]
    · by_cases h₂ : a = k
      · subst h₂; cases bound <;> simp_all [insert, sortedFrom]
      · have := ih (some k) (by simp; omega) hrest
        simp only [insert, h₁, h₂, if_false, sortedFrom, this, Bool.and_eq_true, decide_eq_true_eq]
        exact ⟨⟨hbk, hk⟩, trivial⟩

/-- Every write keeps the canonical form. -/
theorem Memory.wf_write {m : Memory} (h : m.wf = true) (a : Nat) (v : Byte) : (m.write a v).wf = true := by
  unfold write
  split
  · exact sortedFrom_insert v ‹_› m none (by simp) h
  · exact h

/-- The memory after reset has the canonical form. -/
@[simp] theorem Memory.wf_nil : Memory.wf [] = true := rfl

/-- Looking an address up after a write: only an address inside the framebuffer is written. -/
theorem Memory.lookup_write (m : Memory) (a : Nat) (v : Byte) (b : Nat) :
    (m.write a v).lookup b = if b = a ∧ a < Config.fbBytes then some v else m.lookup b := by
  unfold write
  split <;> simp_all [lookup_insert]

/-- Reading after a write. -/
theorem Memory.read_write (epoch : Nat) (m : Memory) (a : Nat) (v : Byte) (b : Nat) :
    Memory.read epoch (m.write a v) b = if b = a ∧ a < Config.fbBytes then v else Memory.read epoch m b := by
  unfold Memory.read
  rw [lookup_write]
  by_cases h : b = a ∧ a < Config.fbBytes <;> simp [h]

/-- An address at or below the bound of a sorted list is not listed. -/
theorem Memory.lookup_of_le_bound : ∀ (m : Memory) (b a : Nat), Memory.sortedFrom (some b) m = true → a ≤ b →
    Memory.lookup m a = none := by
  intro m
  induction m with
  | nil => intros; rfl
  | cons c rest ih =>
    obtain ⟨k, w⟩ := c
    intro b a hs ha
    simp only [sortedFrom, Bool.and_eq_true, decide_eq_true_eq] at hs
    have hne : k ≠ a := by omega
    simp [lookup, hne, ih k a hs.2 (by omega)]

/-- The canonical form: two memories of that form that know the same bytes are the same list. -/
theorem Memory.eq_of_lookup_eq : ∀ (m₁ m₂ : Memory) (b₁ b₂ : Option Nat), Memory.sortedFrom b₁ m₁ = true →
    Memory.sortedFrom b₂ m₂ = true → (∀ a, Memory.lookup m₁ a = Memory.lookup m₂ a) → m₁ = m₂ := by
  intro m₁
  induction m₁ with
  | nil =>
    intro m₂ _ _ _ _ h
    cases m₂ with
    | nil => rfl
    | cons c rest => have := h c.1; simp [lookup] at this
  | cons c₁ r₁ ih =>
    obtain ⟨k₁, w₁⟩ := c₁
    intro m₂ b₁ b₂ h₁ h₂ h
    cases m₂ with
    | nil => have := h k₁; simp [lookup] at this
    | cons c₂ r₂ =>
      obtain ⟨k₂, w₂⟩ := c₂
      simp only [sortedFrom, Bool.and_eq_true, decide_eq_true_eq] at h₁ h₂
      have hk : k₁ = k₂ := by
        rcases Nat.lt_trichotomy k₁ k₂ with hlt | heq | hlt
        · have := h k₁
          simp [lookup, lookup_of_le_bound r₂ k₂ k₁ h₂.2 hlt.le, hlt.ne'] at this
        · exact heq
        · have := h k₂
          simp [lookup, lookup_of_le_bound r₁ k₁ k₂ h₁.2 hlt.le, hlt.ne'] at this
      subst hk
      have hw : w₁ = w₂ := by have := h k₁; simpa [lookup] using this
      have hr : r₁ = r₂ := by
        refine ih r₂ (some k₁) (some k₁) h₁.2 h₂.2 fun a => ?_
        by_cases hle : a ≤ k₁
        · rw [lookup_of_le_bound r₁ k₁ a h₁.2 hle, lookup_of_le_bound r₂ k₁ a h₂.2 hle]
        · have := h a
          simpa [lookup, show k₁ ≠ a by omega] using this
      rw [hw, hr]

/-- Equal memories are equal data: two canonical memories that know the same bytes are the same list. -/
theorem Memory.eq_of_wf {m₁ m₂ : Memory} (h₁ : m₁.wf = true) (h₂ : m₂.wf = true)
    (h : ∀ a, Memory.lookup m₁ a = Memory.lookup m₂ a) : m₁ = m₂ :=
  eq_of_lookup_eq m₁ m₂ none none h₁ h₂ h

/-- A memory of the canonical form lists no address outside the framebuffer. -/
theorem Memory.lookup_eq_none_of_sorted : ∀ (m : Memory) (bound : Option Nat) (a : Nat), Memory.sortedFrom bound m = true →
    Config.fbBytes ≤ a → Memory.lookup m a = none := by
  intro m
  induction m with
  | nil => intros; rfl
  | cons c rest ih =>
    obtain ⟨k, w⟩ := c
    intro bound a hs ha
    simp only [sortedFrom, Bool.and_eq_true, decide_eq_true_eq] at hs
    have hne : k ≠ a := by omega
    simp [lookup, hne, ih _ a hs.2 ha]

theorem Memory.lookup_eq_none_of_wf {m : Memory} (h : m.wf = true) {a : Nat} (ha : Config.fbBytes ≤ a) :
    Memory.lookup m a = none :=
  lookup_eq_none_of_sorted m none a h ha

/-- Consecutive addresses at a constant byte: what they look up as. -/
theorem Memory.lookup_map_range' (v : Byte) : ∀ (n start a : Nat),
    Memory.lookup ((List.range' start n).map fun k => (k, v)) a = if start ≤ a ∧ a < start + n then some v else none := by
  intro n
  induction n with
  | zero => intro start a; simp [lookup]
  | succ n ih =>
    intro start a
    simp only [List.range'_succ, List.map_cons, lookup, ih]
    split
    · simp_all
    · split <;> split <;> first | rfl | omega

/-- Consecutive addresses inside the framebuffer are sorted. -/
theorem Memory.sortedFrom_map_range' (v : Byte) : ∀ (n start : Nat) (bound : Option Nat), (∀ b, bound = some b → b < start) →
    start + n ≤ Config.fbBytes → Memory.sortedFrom bound ((List.range' start n).map fun k => (k, v)) = true := by
  intro n
  induction n with
  | zero => intros; rfl
  | succ n ih =>
    intro start bound hb hn
    have := ih (start + 1) (some start) (by simp) (by omega)
    have hlt : start < Config.fbBytes := by omega
    cases bound <;> simp_all [List.range'_succ, sortedFrom]

/-- After the clear every byte of the framebuffer is listed, at 0. -/
theorem clearedMemory_lookup (a : Nat) :
    Memory.lookup clearedMemory a = if a < Config.fbBytes then some 0x00#8 else none := by
  unfold clearedMemory
  rw [List.range_eq_range', Memory.lookup_map_range']
  simp

/-- After the clear every byte of the framebuffer reads 0. -/
theorem clearedMemory_read (epoch : Nat) {a : Nat} (h : a < Config.fbBytes) : Memory.read epoch clearedMemory a = 0x00#8 := by
  simp only [Memory.read, clearedMemory_lookup, h, if_true]

/-- The clear has the canonical form. -/
theorem clearedMemory_wf : Memory.wf clearedMemory = true := by
  unfold clearedMemory Memory.wf
  rw [List.range_eq_range']
  refine Memory.sortedFrom_map_range' 0x00#8 Config.fbBytes 0 none ?_ ?_
  · intro b h; cases h
  · omega

/-- Writes of 0 over the first `n` addresses. -/
theorem Memory.lookup_foldl_write (v : Byte) : ∀ (l : List Nat) (m : Memory) (a : Nat), (∀ k ∈ l, k < Config.fbBytes) →
    Memory.lookup (l.foldl (fun m k => m.write k v) m) a = if a ∈ l then some v else Memory.lookup m a := by
  intro l
  induction l with
  | nil => intros; simp
  | cons k rest ih =>
    intro m a hl
    simp only [List.foldl_cons, ih _ _ fun j hj => hl j (by simp [hj]), lookup_write, hl k (by simp), and_true, List.mem_cons]
    by_cases h : a ∈ rest <;> by_cases h' : a = k <;> simp [h, h']

/-- Writing over any list of addresses keeps the canonical form. -/
theorem Memory.wf_foldl_write (v : Byte) : ∀ (l : List Nat) (m : Memory), m.wf = true →
    Memory.wf (l.foldl (fun m k => m.write k v) m) = true := by
  intro l
  induction l with
  | nil => intro m h; exact h
  | cons k rest ih => intro m h; exact ih _ (wf_write h k v)

/-- The clear is the loop of R134: a write of 0 to every address, ascending, over whatever the framebuffer held. -/
theorem clearedMemory_eq_writes {m : Memory} (h : m.wf = true) :
    (List.range Config.fbBytes).foldl (fun m a => m.write a 0x00#8) m = clearedMemory := by
  refine Memory.eq_of_wf (Memory.wf_foldl_write _ _ _ h) clearedMemory_wf fun a => ?_
  rw [Memory.lookup_foldl_write _ _ _ _ (fun k hk => List.mem_range.mp hk), clearedMemory_lookup]
  by_cases ha : a < Config.fbBytes
  · rw [if_pos (List.mem_range.mpr ha), if_pos ha]
  · rw [if_neg (fun hm => ha (List.mem_range.mp hm)), if_neg ha]
    exact Memory.lookup_eq_none_of_wf h (by omega)

end Sys2Proof.Machine
end

