-- ==== Sys2Proof/Laws/Drawing.lean ====
section
/-! SUPPORT. What the renderer's primitives do to the bytes and the pixels of the framebuffer. -/

namespace Sys2Proof.Machine

theorem onDisplay_iff (u v : Int) : onDisplay u v = true ↔ 0 ≤ u ∧ u < 128 ∧ 0 ≤ v ∧ v < 64 := by
  simp [onDisplay]

/-- A pixel of the display lies in a byte of the framebuffer (R52). -/
theorem fbAddress_lt {u v : Nat} (hu : u < 128) (hv : v < 64) : fbAddress u v < Config.fbBytes := by
  simp only [fbAddress, Config.fbBytes, Config.dispW, Config.dispH]; omega

/-- The byte and the bit determine the pixel (R52, R53). -/
theorem fbAddress_inj {u v u' v' : Nat} (hu : u < 128) (hu' : u' < 128) :
    (fbAddress u v = fbAddress u' v' ∧ v % 8 = v' % 8) ↔ (u = u' ∧ v = v') := by
  simp only [fbAddress, Config.dispW]
  omega

/-- `SetFbPixel` outside the display leaves the framebuffer as it is (R131). -/
theorem setFbPixel_of_off (epoch : Nat) {u v : Int} (m : Memory) (h : onDisplay u v = false) : setFbPixel epoch u v m = m := by
  simp [setFbPixel, h]

/-- Every byte after `SetFbPixel` (R131). -/
theorem read_setFbPixel (epoch : Nat) (u v : Int) (m : Memory) (a : Nat) :
    Memory.read epoch (setFbPixel epoch u v m) a =
      if onDisplay u v = true ∧ a = fbAddress u.toNat v.toNat then Memory.read epoch m a ||| (1#8 <<< (v.toNat % 8))
      else Memory.read epoch m a := by
  by_cases h : onDisplay u v = true
  · have hd := (onDisplay_iff u v).mp h
    have ha : fbAddress u.toNat v.toNat < Config.fbBytes := fbAddress_lt (by omega) (by omega)
    by_cases hb : a = fbAddress u.toNat v.toNat
    · subst hb; simp only [setFbPixel, h, if_true, Memory.read_write, ha, and_self]
    · simp only [setFbPixel, h, if_true, Memory.read_write, hb, false_and, and_false, if_false]
  · simp [setFbPixel, h]

/-- `SetFbPixel` keeps the canonical form. -/
theorem wf_setFbPixel (epoch : Nat) (u v : Int) {m : Memory} (h : m.wf = true) : (setFbPixel epoch u v m).wf = true := by
  unfold setFbPixel
  split
  · exact Memory.wf_write h _ _
  · exact h

/-- Bit `i` of the byte with bit `j` alone set. -/
theorem getLsbD_bit {i j : Nat} (hi : i < 8) (hj : j < 8) : (1#8 <<< j).getLsbD i = decide (i = j) := by
  interval_cases i <;> interval_cases j <;> rfl

/-- Every display pixel after `SetFbPixel`: on if it was, or if it is the one set (R131). -/
theorem pixel_setFbPixel (epoch : Nat) (u v : Int) (m : Memory) {u' v' : Nat} (hu : u' < 128) (hv : v' < 64) :
    Memory.pixel epoch (setFbPixel epoch u v m) u' v' = (Memory.pixel epoch m u' v' || decide (u = u' ∧ v = v')) := by
  unfold Memory.pixel
  rw [read_setFbPixel]
  by_cases hd : onDisplay u v = true
  · have hb := (onDisplay_iff u v).mp hd
    by_cases ha : fbAddress u' v' = fbAddress u.toNat v.toNat
    · rw [if_pos ⟨hd, ha⟩, BitVec.getLsbD_or, getLsbD_bit (Nat.mod_lt _ (by decide)) (Nat.mod_lt _ (by decide))]
      congr 1
      have := fbAddress_inj (u := u') (v := v') (u' := u.toNat) (v' := v.toNat) hu (by omega)
      simp only [decide_eq_decide]
      constructor
      · intro hm; have := this.mp ⟨ha, hm⟩; omega
      · intro hm
        have : v' = v.toNat := by omega
        rw [this]
    · rw [if_neg (fun h => ha h.2)]
      have : ¬ (u = u' ∧ v = v') := by
        rintro ⟨rfl, rfl⟩
        exact ha (by simp)
      simp [this]
  · rw [if_neg (fun h => hd h.1)]
    have : ¬ (u = u' ∧ v = v') := by
      rintro ⟨rfl, rfl⟩
      exact hd ((onDisplay_iff _ _).mpr (by omega))
    simp [this]

/-! ### Drawing cell by cell -/

/-- Set the pixels of a list of cells, relative to an origin, that a test selects. `drawGlyph` is the instance of a glyph's 35 cells. -/
def drawCells (epoch : Nat) (lit : Nat × Nat → Bool) (x y : Int) (cells : List (Nat × Nat)) (m : Memory) : Memory :=
  cells.foldl (fun m p => if lit p then setFbPixel epoch (x + p.1) (y + p.2) m else m) m

theorem drawGlyph_eq (epoch : Nat) (g : Vector Byte 5) (x y : Int) (m : Memory) :
    drawGlyph epoch g x y m = drawCells epoch (fun p => glyphBit g p.1 p.2) x y glyphCells m := rfl

/-- Bit `row` of byte `column` (R54). -/
theorem glyphBit_of_lt (g : Vector Byte 5) {column : Nat} (h : column < 5) (row : Nat) :
    glyphBit g column row = g[column].getLsbD row := by simp [glyphBit, h]

theorem mem_glyphCells {p : Nat × Nat} : p ∈ glyphCells ↔ p.1 < 5 ∧ p.2 < 7 := by
  obtain ⟨a, b⟩ := p
  constructor
  · intro h; simp [glyphCells] at h; omega
  · rintro ⟨ha, hb⟩; simp at ha hb; interval_cases a <;> interval_cases b <;> decide

theorem wf_drawCells (epoch : Nat) (lit : Nat × Nat → Bool) (x y : Int) (cells : List (Nat × Nat)) {m : Memory} (h : m.wf = true) :
    (drawCells epoch lit x y cells m).wf = true := by
  induction cells generalizing m with
  | nil => exact h
  | cons p rest ih =>
    refine ih (m := if lit p then setFbPixel epoch (x + p.1) (y + p.2) m else m) ?_
    split
    · exact wf_setFbPixel _ _ _ h
    · exact h

theorem pixel_drawCells (epoch : Nat) (lit : Nat × Nat → Bool) (x y : Int) (cells : List (Nat × Nat)) (m : Memory) {u v : Nat}
    (hu : u < 128) (hv : v < 64) :
    Memory.pixel epoch (drawCells epoch lit x y cells m) u v = true ↔
      Memory.pixel epoch m u v = true ∨ ∃ p ∈ cells, lit p = true ∧ (u : Int) = x + p.1 ∧ (v : Int) = y + p.2 := by
  induction cells generalizing m with
  | nil => simp [drawCells]
  | cons p rest ih =>
    have := ih (if lit p then setFbPixel epoch (x + p.1) (y + p.2) m else m)
    simp only [drawCells, List.foldl_cons] at this ⊢
    rw [this]
    by_cases hp : lit p = true
    · simp only [hp, if_true, pixel_setFbPixel epoch _ _ _ hu hv, Bool.or_eq_true, decide_eq_true_eq, List.mem_cons]
      constructor
      · rintro ((h | h) | ⟨q, hq, h⟩)
        · exact .inl h
        · exact .inr ⟨p, .inl rfl, hp, by omega, by omega⟩
        · exact .inr ⟨q, .inr hq, h⟩
      · rintro (h | ⟨q, rfl | hq, h⟩)
        · exact .inl (.inl h)
        · exact .inl (.inr ⟨by omega, by omega⟩)
        · exact .inr ⟨q, hq, h⟩
    · simp only [hp, List.mem_cons]
      constructor
      · rintro (h | ⟨q, hq, h⟩)
        · exact .inl h
        · exact .inr ⟨q, .inr hq, h⟩
      · rintro (h | ⟨q, rfl | hq, h⟩)
        · exact .inl h
        · exact absurd h.1 hp
        · exact .inr ⟨q, hq, h⟩

theorem read_drawCells (epoch : Nat) (lit : Nat × Nat → Bool) (x y : Int) (cells : List (Nat × Nat)) (m : Memory) (a : Nat)
    (h : ∀ p ∈ cells, lit p = true → ∀ u v : Nat, u < 128 → v < 64 → (u : Int) = x + p.1 → (v : Int) = y + p.2 → fbAddress u v ≠ a) :
    Memory.read epoch (drawCells epoch lit x y cells m) a = Memory.read epoch m a := by
  induction cells generalizing m with
  | nil => rfl
  | cons p rest ih =>
    have := ih (if lit p then setFbPixel epoch (x + p.1) (y + p.2) m else m) (fun q hq => h q (by simp [hq]))
    simp only [drawCells, List.foldl_cons] at this ⊢
    rw [this]
    by_cases hp : lit p = true
    · rw [if_pos hp, read_setFbPixel, if_neg]
      rintro ⟨hd, ha⟩
      have hb := (onDisplay_iff _ _).mp hd
      exact h p (by simp) hp (x + p.1).toNat (y + p.2).toNat (by omega) (by omega) (by omega) (by omega) ha.symm
    · simp [hp]

/-! ### Characters and texts -/

/-- The pixels after one character: on if they were, or where the character has ink (R132). -/
theorem pixel_drawChar (epoch : Nat) (rom : Rom) (x y : Int) (c : Byte) (m : Memory) {u v : Nat} (hu : u < 128) (hv : v < 64) :
    Memory.pixel epoch (drawChar epoch rom x y c m) u v = true ↔ Memory.pixel epoch m u v = true ∨ inkAt rom c x y u v := by
  unfold drawChar inkAt
  cases hg : glyph rom c with
  | none => simp
  | some g =>
    simp only [drawGlyph_eq, pixel_drawCells epoch _ x y _ m hu hv, mem_glyphCells, Option.some.injEq]
    constructor
    · rintro (h | ⟨⟨a, b⟩, ⟨ha, hb⟩, h⟩)
      · exact .inl h
      · exact .inr ⟨g, rfl, a, b, ha, hb, by rwa [glyphBit_of_lt g ha] at h⟩
    · rintro (h | ⟨_, rfl, a, b, ha, hb, h⟩)
      · exact .inl h
      · exact .inr ⟨(a, b), ⟨ha, hb⟩, by rwa [glyphBit_of_lt g ha]⟩

/-- A byte that no ink of the character lies in reads as before (R132). -/
theorem read_drawChar (epoch : Nat) (rom : Rom) (x y : Int) (c : Byte) (m : Memory) (a : Nat)
    (h : ∀ u v : Nat, u < 128 → v < 64 → inkAt rom c x y u v → fbAddress u v ≠ a) :
    Memory.read epoch (drawChar epoch rom x y c m) a = Memory.read epoch m a := by
  unfold drawChar
  cases hg : glyph rom c with
  | none => rfl
  | some g =>
    refine read_drawCells epoch _ x y _ m a fun p hp hl u v hu hv h₁ h₂ => h u v hu hv ?_
    have := mem_glyphCells.mp hp
    exact ⟨g, hg, p.1, p.2, this.1, this.2, by rwa [← glyphBit_of_lt g this.1], h₁, h₂⟩

theorem wf_drawChar (epoch : Nat) (rom : Rom) (x y : Int) (c : Byte) {m : Memory} (h : m.wf = true) :
    (drawChar epoch rom x y c m).wf = true := by
  unfold drawChar
  split
  · exact wf_drawCells _ _ _ _ _ h
  · exact h

theorem wf_drawText (epoch : Nat) (rom : Rom) (x : Int) (text : List Byte) : ∀ (cx cy : Int) {m : Memory}, m.wf = true →
    (drawText epoch rom x cx cy text m).wf = true := by
  induction text with
  | nil => intro _ _ _ h; exact h
  | cons c rest ih =>
    intro cx cy m h
    unfold drawText
    split
    · exact ih _ _ h
    · exact ih _ _ (wf_drawChar _ _ _ _ _ h)

/-! ### A whole text -/

/-- `textInkAt` of a text that is under way: its line began at column `x` and its cursor stands at `(cx, cy)`. -/
def inkFrom (rom : Rom) (x cx cy : Int) (text : List Byte) (u v : Nat) : Prop :=
  ∃ k c, text[k]? = some c ∧ c ≠ newline ∧
    inkAt rom c (if lineOf text k = 0 then cx + 6 * columnOf text k else x + 6 * columnOf text k) (cy + 8 * lineOf text k) u v

theorem lineOf_zero (t : List Byte) : lineOf t 0 = 0 := rfl
theorem columnOf_zero (t : List Byte) : columnOf t 0 = 0 := rfl

/-- A newline in front moves every character down a line. -/
theorem lineOf_succ (c : Byte) (t : List Byte) (k : Nat) : lineOf (c :: t) (k+1) = (if c = newline then 1 else 0) + lineOf t k := by
  unfold lineOf
  rw [List.take_succ_cons]
  by_cases h : c = newline
  · rw [List.filter_cons_of_pos (by simpa using h)]; simp [h]; omega
  · rw [List.filter_cons_of_neg (by simpa using h)]; simp [h]

/-- A character in front, not a newline, moves those of its own line one column on. -/
theorem columnOf_succ (c : Byte) (t : List Byte) (k : Nat) : columnOf (c :: t) (k+1) =
    columnOf t k + (if lineOf t k = 0 ∧ c ≠ newline then 1 else 0) := by
  unfold columnOf lineOf
  rw [List.take_succ_cons, List.reverse_cons]
  rw [List.takeWhile_append]
  by_cases hall : ∀ b ∈ t.take k, b ≠ newline
  · have h1 : (t.take k).reverse.takeWhile (fun b => decide (b ≠ newline)) = (t.take k).reverse := by
      rw [List.takeWhile_eq_self_iff]; intro b hb; simpa using hall b (by simpa using hb)
    have h2 : (t.take k).filter (fun b => decide (b = newline)) = [] := by
      rw [List.filter_eq_nil_iff]; intro b hb; simpa using hall b hb
    rw [h1, h2]
    by_cases h : c = newline <;> simp [h]
  · have h2 : ((t.take k).filter (fun b => decide (b = newline))).length ≠ 0 := by
      push Not at hall
      obtain ⟨b, hb, hn⟩ := hall
      have : b ∈ (t.take k).filter (fun b => decide (b = newline)) := List.mem_filter.mpr ⟨hb, by simp [hn]⟩
      intro h0
      rw [List.length_eq_zero_iff] at h0
      rw [h0] at this; cases this
    have h1 : ¬ ((t.take k).reverse.takeWhile (fun b => decide (b ≠ newline))).length = (t.take k).reverse.length := by
      intro h
      apply hall
      have := (List.takeWhile_prefix (fun b => decide (b ≠ newline)) (l := (t.take k).reverse)).eq_of_length h
      rw [List.takeWhile_eq_self_iff] at this
      intro b hb; simpa using this b (by simpa using hb)
    rw [if_neg h1, if_neg (fun hh => h2 hh.1)]; rfl

/-- The first character, then the rest from where the cursor stands after it (R133). -/
theorem inkFrom_cons (rom : Rom) (x cx cy : Int) (c : Byte) (t : List Byte) (u v : Nat) :
    inkFrom rom x cx cy (c :: t) u v ↔
      if c = newline then inkFrom rom x x (cy + 8) t u v
      else inkAt rom c cx cy u v ∨ inkFrom rom x (cx + 6) cy t u v := by
  unfold inkFrom
  by_cases h : c = newline
  · rw [if_pos h]
    constructor
    · rintro ⟨k, b, hk, hb, hi⟩
      cases k with
      | zero => simp at hk; exact absurd (hk ▸ h) hb
      | succ k =>
        have hk' : t[k]? = some b := by simpa using hk
        have hlt : k < t.length := by
          by_contra hh; rw [List.getElem?_eq_none (by omega)] at hk'; cases hk'
        refine ⟨k, b, hk', hb, ?_⟩
        rw [lineOf_succ, columnOf_succ] at hi
        simp [h] at hi
        have e : ((if lineOf t k = 0 then x + 6 * (columnOf t k:Int) else x + 6 * columnOf t k)) = x + 6 * columnOf t k := by split <;> rfl
        rw [e]
        have e2 : cy + 8 + 8 * (lineOf t k : Int) = cy + 8 * (1 + lineOf t k) := by ring
        rw [e2]; exact hi
    · rintro ⟨k, b, hk, hb, hi⟩
      have hlt : k < t.length := by
        by_contra hh; rw [List.getElem?_eq_none (by omega)] at hk; cases hk
      refine ⟨k + 1, b, by simpa using hk, hb, ?_⟩
      rw [lineOf_succ, columnOf_succ]
      simp [h]
      have e : ((if lineOf t k = 0 then x + 6 * (columnOf t k:Int) else x + 6 * columnOf t k)) = x + 6 * columnOf t k := by split <;> rfl
      rw [e] at hi
      have e2 : cy + 8 + 8 * (lineOf t k : Int) = cy + 8 * (1 + lineOf t k) := by ring
      rw [e2] at hi; exact hi
  · rw [if_neg h]
    constructor
    · rintro ⟨k, b, hk, hb, hi⟩
      cases k with
      | zero =>
        simp at hk; subst hk
        left; simpa [lineOf_zero, columnOf_zero] using hi
      | succ k =>
        right
        have hk' : t[k]? = some b := by simpa using hk
        have hlt : k < t.length := by
          by_contra hh; rw [List.getElem?_eq_none (by omega)] at hk'; cases hk'
        refine ⟨k, b, hk', hb, ?_⟩
        rw [lineOf_succ, columnOf_succ] at hi
        simp [h] at hi
        by_cases hl : lineOf t k = 0
        · simp [hl] at hi ⊢
          have : cx + 6 + 6 * (columnOf t k : Int) = cx + 6 * (columnOf t k + 1) := by ring
          rw [this]; exact hi
        · simp [hl] at hi ⊢; exact hi
    · rintro (hi | ⟨k, b, hk, hb, hi⟩)
      · exact ⟨0, c, by simp, h, by simpa [lineOf_zero, columnOf_zero] using hi⟩
      · have hlt : k < t.length := by
          by_contra hh; rw [List.getElem?_eq_none (by omega)] at hk; cases hk
        refine ⟨k + 1, b, by simpa using hk, hb, ?_⟩
        rw [lineOf_succ, columnOf_succ]
        by_cases hl : lineOf t k = 0
        · simp [h, hl] at hi ⊢
          have : cx + 6 + 6 * (columnOf t k : Int) = cx + 6 * (columnOf t k + 1) := by ring
          rw [this] at hi; exact hi
        · simp [h, hl] at hi ⊢; exact hi

/-- The pixels after a text: on if they were, or where a character has ink at its own cursor (R133). -/
theorem pixel_drawText (e : Nat) (rom : Rom) (x : Int) (t : List Byte) : ∀ (cx cy : Int) (m : Memory) (u v : Nat), u < 128 → v < 64 →
    (Memory.pixel e (drawText e rom x cx cy t m) u v = true ↔ Memory.pixel e m u v = true ∨ inkFrom rom x cx cy t u v) := by
  induction t with
  | nil => intro cx cy m u v _ _; simp [drawText, inkFrom]
  | cons c t ih =>
    intro cx cy m u v hu hv
    rw [inkFrom_cons]
    unfold drawText
    split
    · exact ih _ _ _ _ _ hu hv
    · rw [ih _ _ _ _ _ hu hv, pixel_drawChar _ _ _ _ _ _ hu hv, or_assoc]

/-- A byte that no ink of the text lies in reads as before (R133). -/
theorem read_drawText (e : Nat) (rom : Rom) (x : Int) (t : List Byte) : ∀ (cx cy : Int) (m : Memory) (a : Nat),
    (∀ u v : Nat, u < 128 → v < 64 → inkFrom rom x cx cy t u v → fbAddress u v ≠ a) →
    Memory.read e (drawText e rom x cx cy t m) a = Memory.read e m a := by
  induction t with
  | nil => intros; rfl
  | cons c t ih =>
    intro cx cy m a h
    simp only [inkFrom_cons] at h
    unfold drawText
    split
    · next hc => exact ih _ _ _ _ (fun u v hu hv hi => h u v hu hv (by rw [if_pos hc]; exact hi))
    · next hc =>
      rw [ih _ _ _ _ (fun u v hu hv hi => h u v hu hv (by rw [if_neg hc]; exact .inr hi))]
      exact read_drawChar _ _ _ _ _ _ _ (fun u v hu hv hi => h u v hu hv (by rw [if_neg hc]; exact .inl hi))

/-- From the start of the text it is `textInkAt`. -/
theorem inkFrom_eq (rom : Rom) (x y : Int) (t : List Byte) (u v : Nat) : inkFrom rom x x y t u v ↔ textInkAt rom t x y u v := by
  unfold inkFrom textInkAt
  simp only [ite_self]

/-! ### A buffer in which every byte is known -/

/-- Every byte of the framebuffer has been written. -/
def Memory.total (m : Memory) : Prop := ∀ a, a < Config.fbBytes → Memory.lookup m a ≠ none

theorem clearedMemory_total : Memory.total clearedMemory := by
  intro a h; rw [clearedMemory_lookup, if_pos h]; simp

theorem read_of_total {m : Memory} (h : m.total) (e₁ e₂ : Nat) {a : Nat} (ha : a < Config.fbBytes) :
    Memory.read e₁ m a = Memory.read e₂ m a := by
  have := h a ha
  unfold Memory.read
  cases hl : Memory.lookup m a with
  | none => exact absurd hl this
  | some v => rfl

theorem total_setFbPixel {m : Memory} (h : m.total) (epoch : Nat) (u v : Int) : (setFbPixel epoch u v m).total := by
  unfold setFbPixel
  split
  · intro a ha
    rw [Memory.lookup_write]
    split
    · simp
    · exact h a ha
  · exact h

theorem setFbPixel_of_total {m : Memory} (h : m.total) (e₁ e₂ : Nat) (u v : Int) :
    setFbPixel e₁ u v m = setFbPixel e₂ u v m := by
  unfold setFbPixel
  split
  · rename_i hd
    have hb := (onDisplay_iff u v).mp hd
    have ha : fbAddress u.toNat v.toNat < Config.fbBytes := fbAddress_lt (by omega) (by omega)
    simp only [read_of_total h e₁ e₂ ha]
  · rfl

theorem drawCells_of_total (e₁ e₂ : Nat) (lit : Nat × Nat → Bool) (x y : Int) (cells : List (Nat × Nat)) {m : Memory} (h : m.total) :
    (drawCells e₁ lit x y cells m).total ∧ drawCells e₁ lit x y cells m = drawCells e₂ lit x y cells m := by
  induction cells generalizing m with
  | nil => exact ⟨h, rfl⟩
  | cons p rest ih =>
    by_cases hp : lit p = true
    · have := ih (total_setFbPixel h e₁ (x + p.1) (y + p.2))
      simp only [drawCells, List.foldl_cons, hp, if_true] at this ⊢
      rw [← setFbPixel_of_total h e₁ e₂]
      exact this
    · have := ih h
      simp only [drawCells, List.foldl_cons, hp] at this ⊢
      exact this

/-- On a buffer in which every byte is known a text leaves the same bytes whatever the free values are. -/
theorem drawText_of_total (e₁ e₂ : Nat) (rom : Rom) (x : Int) (text : List Byte) : ∀ (cx cy : Int) {m : Memory}, m.total →
    drawText e₁ rom x cx cy text m = drawText e₂ rom x cx cy text m := by
  induction text with
  | nil => intros; rfl
  | cons c rest ih =>
    intro cx cy m h
    unfold drawText
    split
    · exact ih _ _ h
    · have : (drawChar e₁ rom cx cy c m).total ∧ drawChar e₁ rom cx cy c m = drawChar e₂ rom cx cy c m := by
        unfold drawChar
        split
        · exact drawCells_of_total e₁ e₂ _ _ _ _ h
        · exact ⟨h, rfl⟩
      rw [← this.2]
      exact ih _ _ this.1

/-- A text keeps every byte known. -/
theorem total_drawText (epoch : Nat) (rom : Rom) (x : Int) (text : List Byte) : ∀ (cx cy : Int) {m : Memory}, m.total →
    (drawText epoch rom x cx cy text m).total := by
  induction text with
  | nil => intro _ _ _ h; exact h
  | cons c rest ih =>
    intro cx cy m h
    unfold drawText
    split
    · exact ih _ _ h
    · refine ih _ _ ?_
      unfold drawChar
      split
      · exact (drawCells_of_total epoch epoch _ _ _ _ h).1
      · exact h

/-- The frame of a buffer in which every byte is known does not depend on the free values. -/
theorem frameBytes_of_total {m : Memory} (h : m.total) (e₁ e₂ : Nat) : frameBytes e₁ m = frameBytes e₂ m := by
  unfold frameBytes
  exact List.map_congr_left fun a ha => read_of_total h e₁ e₂ (List.mem_range.mp ha)

/-- The frame `Transfer()` sends is the whole buffer, byte for byte (R135). -/
theorem frameBytes_length (epoch : Nat) (m : Memory) : (frameBytes epoch m).length = Config.fbBytes := by
  simp only [frameBytes, List.length_map, List.length_range]

theorem frameBytes_getElem? (epoch : Nat) (m : Memory) {a : Nat} (h : a < Config.fbBytes) :
    (frameBytes epoch m)[a]? = some (Memory.read epoch m a) := by
  simp only [frameBytes, List.getElem?_map, List.getElem?_range h, Option.map_some]

end Sys2Proof.Machine
end

