-- ==== Sys2Proof/Laws/Led.lean ====
section
/-! SUPPORT. The LED Frame's registers, the serpentine map, and what the protocol generator puts on the wire. -/

namespace Sys2Proof.Machine

/-- Every pixel of the black frame is black. -/
@[simp] theorem blackFrame_getElem (j : Nat) (h : j < Config.numPixels) : blackFrame[j] = Color.black := by
  simp only [blackFrame, Vector.getElem_replicate]

/-- Every pixel after one is set (R105). -/
theorem setPixel_getElem (px : Vector Color Config.numPixels) (i : Nat) (c : Color) (j : Nat) (h : j < Config.numPixels) :
    (setPixel px i c)[j] = if j = i then c else px[j] := by
  unfold setPixel
  split
  · rw [Vector.getElem_set]; simp [eq_comm]
  · have : j ≠ i := by omega
    simp [this]

/-- An index outside the frame is rejected (R182). -/
theorem setPixel_of_le (px : Vector Color Config.numPixels) {i : Nat} (c : Color) (h : Config.numPixels ≤ i) :
    setPixel px i c = px := by
  simp [setPixel, show ¬ i < Config.numPixels from by omega]

/-! ### The serpentine map -/

/-- `phys` stays inside its row's block (R100, R101). -/
theorem physOf_block {w x y : Nat} (hx : x < w) : y * w ≤ physOf w x y ∧ physOf w x y < (y + 1) * w := by
  have : (y + 1) * w = y * w + w := by ring
  unfold physOf
  split <;> omega

theorem physOf_lt {w h x y : Nat} (hx : x < w) (hy : y < h) : physOf w x y < w * h := by
  have h₁ := (physOf_block (y := y) hx).2
  have h₂ : (y + 1) * w ≤ h * w := Nat.mul_le_mul_right w hy
  rw [Nat.mul_comm w h]; omega

theorem physOf_div {w x y : Nat} (hx : x < w) : physOf w x y / w = y := by
  have := physOf_block (y := y) hx
  exact Nat.div_eq_of_lt_le this.1 this.2

/-! ### Digit glyphs -/

/-- A logical coordinate of the matrix names its physical pixel (R102). -/
theorem setLogicalPixel_eq (px : Vector Color Config.numPixels) {x y : Nat} (hx : x < 5) (hy : y < 5) (c : Color) :
    setLogicalPixel px x y c = setPixel px (physOf 5 x y) c := by
  unfold setLogicalPixel phys
  rw [if_pos ⟨hx, hy⟩]

theorem mem_digitCells {p : Nat × Nat} : p ∈ digitCells ↔ p.1 < 5 ∧ p.2 < 5 := by
  obtain ⟨a, b⟩ := p
  constructor
  · intro h; simp [digitCells] at h; omega
  · rintro ⟨ha, hb⟩; simp at ha hb; interval_cases a <;> interval_cases b <;> decide

/-- Drawing selected cells of the matrix in one colour: a pixel takes it where a selected cell maps to it. -/
theorem foldl_setLogicalPixel_getElem (lit : Nat × Nat → Bool) (c : Color) (cells : List (Nat × Nat))
    (hc : ∀ p ∈ cells, p.1 < 5 ∧ p.2 < 5) (px : Vector Color Config.numPixels) (j : Nat) (h : j < Config.numPixels) :
    (cells.foldl (fun px p => if lit p then setLogicalPixel px p.1 p.2 c else px) px)[j] =
      if cells.any (fun p => lit p && decide (physOf 5 p.1 p.2 = j)) then c else px[j] := by
  induction cells generalizing px with
  | nil => simp
  | cons p rest ih =>
    have hp := hc p (by simp)
    rw [List.foldl_cons, ih (fun q hq => hc q (by simp [hq]))]
    have hq : (if lit p = true then setLogicalPixel px p.1 p.2 c else px)[j] =
        if (lit p && decide (physOf 5 p.1 p.2 = j)) = true then c else px[j] := by
      split
      · next hl => rw [setLogicalPixel_eq px hp.1 hp.2, setPixel_getElem]; simp [hl, eq_comm]
      · next hl => simp [hl]
    rw [hq, List.any_cons]
    generalize (lit p && decide (physOf 5 p.1 p.2 = j)) = b
    generalize rest.any (fun p => lit p && decide (physOf 5 p.1 p.2 = j)) = b'
    cases b <;> cases b' <;> rfl

/-- Every pixel of a digit's frame: red where a set bit of the glyph maps to it, black elsewhere (R111). -/
theorem digitFrame_getElem (rom : Rom) (v j : Nat) (h : j < Config.numPixels) :
    (digitFrame rom v)[j] =
      if digitCells.any (fun p => digitBit rom v p.1 p.2 && decide (physOf 5 p.1 p.2 = j)) then Color.fullRed else Color.black := by
  unfold digitFrame
  rw [foldl_setLogicalPixel_getElem (fun p => digitBit rom v p.1 p.2) _ _ (fun p hp => mem_digitCells.mp hp)]
  rw [blackFrame_getElem]

/-! ### The protocol generator -/

theorem sendByte_length (v : Byte) : (sendByte v).length = 8 := rfl
theorem pixelSymbols_length (c : Color) : (pixelSymbols c).length = 24 := rfl

/-- Symbol `k` of a byte is bit `7 − k` (R108). -/
theorem sendByte_getElem? (v : Byte) {k : Nat} (h : k < 8) : (sendByte v)[k]? = some (bitSymbol (v.getLsbD (7 - k))) := by
  interval_cases k <;> rfl

theorem Emitter.advance_line (e : Emitter) :
    e.advance.out ++ e.advance.shifter ++ e.advance.queue.flatMap pixelSymbols =
      e.out ++ e.shifter ++ e.queue.flatMap pixelSymbols := by
  obtain ⟨_ | ⟨c, q⟩, sh, o⟩ := e <;> simp [advance]

theorem Emitter.advance_queue (e : Emitter) : e.advance.queue = e.queue.tail := by
  obtain ⟨_ | ⟨c, q⟩, sh, o⟩ := e <;> rfl

/-- What is on the wire, in the register and in the queue, in order, grows by exactly the submitted pixel, whatever the depth (R110). -/
theorem Emitter.submit_line (depth : Nat) (e : Emitter) (c : Color) :
    (e.submit depth c).out ++ (e.submit depth c).shifter ++ (e.submit depth c).queue.flatMap pixelSymbols =
      e.out ++ e.shifter ++ e.queue.flatMap pixelSymbols ++ pixelSymbols c := by
  unfold submit
  split
  · simp
  · have := e.advance_line
    simp only [List.flatMap_append, List.flatMap_cons, List.flatMap_nil, List.append_nil, ← List.append_assoc, this]

/-- The queue never holds more than its depth (R110). -/
theorem Emitter.submit_queue_le {depth : Nat} (hd : 1 ≤ depth) {e : Emitter} (h : e.queue.length ≤ depth) (c : Color) :
    (e.submit depth c).queue.length ≤ depth := by
  unfold submit
  split
  · simp; omega
  · simp [advance_queue]; omega

theorem Emitter.foldl_submit_line (depth : Nat) (cs : List Color) : ∀ e : Emitter,
    (cs.foldl (submit depth) e).out ++ (cs.foldl (submit depth) e).shifter ++
        (cs.foldl (submit depth) e).queue.flatMap pixelSymbols =
      e.out ++ e.shifter ++ e.queue.flatMap pixelSymbols ++ cs.flatMap pixelSymbols := by
  induction cs with
  | nil => intro e; simp
  | cons c rest ih =>
    intro e
    rw [List.foldl_cons, ih, submit_line]
    simp

theorem Emitter.run_line (n : Nat) : ∀ e : Emitter,
    (e.run n).out ++ (e.run n).shifter ++ (e.run n).queue.flatMap pixelSymbols =
      e.out ++ e.shifter ++ e.queue.flatMap pixelSymbols := by
  induction n with
  | zero => intro e; rfl
  | succ n ih => intro e; rw [show Emitter.run (n + 1) e = Emitter.run n e.advance from rfl, ih, advance_line]

theorem Emitter.run_idle (n : Nat) : ∀ e : Emitter, e.queue.length < n → (e.run n).queue = [] ∧ (e.run n).shifter = [] := by
  induction n with
  | zero => intro e h; omega
  | succ n ih =>
    intro e h
    rw [show Emitter.run (n + 1) e = Emitter.run n e.advance from rfl]
    by_cases hq : e.advance.queue.length < n
    · exact ih _ hq
    · have hl : e.queue = [] ∧ n = 0 := by
        rw [advance_queue, List.length_tail] at hq
        exact ⟨List.length_eq_zero_iff.mp (by omega), by omega⟩
      obtain ⟨hnil, rfl⟩ := hl
      obtain ⟨q, sh, o⟩ := e
      cases (hnil : q = [])
      exact ⟨rfl, rfl⟩

/-- Draining leaves the generator idle and everything it held on the wire, in order (R110). -/
theorem Emitter.drain_eq (e : Emitter) :
    e.drain = { queue := [], shifter := [], out := e.out ++ e.shifter ++ e.queue.flatMap pixelSymbols } := by
  have h₁ := Emitter.run_idle (e.queue.length + 1) e (by omega)
  have h₂ := Emitter.run_line (e.queue.length + 1) e
  unfold drain
  revert h₁ h₂
  generalize Emitter.run (e.queue.length + 1) e = r
  rintro ⟨hq, hs⟩ hl
  obtain ⟨q, sh, o⟩ := r
  subst hq hs
  simpa using hl

/-- Sending a frame: what the generator held, then the frame, then the latch, and the generator idle, for every queue depth (R107, R110). -/
theorem Emitter.sendFrame_eq (depth : Nat) (px : Vector Color Config.numPixels) (e : Emitter) :
    e.sendFrame depth px =
      { queue := [], shifter := [], out := e.out ++ e.shifter ++ e.queue.flatMap pixelSymbols ++ wireFrame px } := by
  unfold sendFrame
  simp only [drain_eq, foldl_submit_line]
  simp [wireFrame, frameSymbols]

/-- The body of `FLUSH` from an idle generator: one whole frame and its latch on the wire, and nothing else changes (R107). -/
theorem flushFrame_eq {s : State} (hq : s.queue = []) (hs : s.shifter = []) :
    flushFrame s = { s with ledOut := s.ledOut ++ wireFrame s.px } := by
  unfold flushFrame State.setEmitter
  rw [Emitter.sendFrame_eq]
  simp only [State.emitter, hq, hs, List.flatMap_nil, List.append_nil]

theorem flushFrame_queue (s : State) : (flushFrame s).queue = [] := by
  unfold flushFrame State.setEmitter; rw [Emitter.sendFrame_eq]

theorem flushFrame_shifter (s : State) : (flushFrame s).shifter = [] := by
  unfold flushFrame State.setEmitter; rw [Emitter.sendFrame_eq]

theorem flushFrame_px (s : State) : (flushFrame s).px = s.px := rfl
theorem flushFrame_ledMode (s : State) : (flushFrame s).ledMode = s.ledMode := rfl

theorem flatMap_getElem?_of_const_length {α β : Type} (f : α → List β) (n : Nat) (hf : ∀ a, (f a).length = n) :
    ∀ (l : List α) (i k : Nat), (h : i < l.length) → k < n → (l.flatMap f)[n * i + k]? = (f l[i])[k]? := by
  intro l
  induction l with
  | nil => intro i k h; simp at h
  | cons a rest ih =>
    intro i k h hk
    cases i with
    | zero => simp [List.getElem?_append, hf, hk]
    | succ i =>
      rw [List.flatMap_cons, List.getElem?_append_right (by rw [hf]; nlinarith)]
      rw [hf, show n * (i + 1) + k - n = n * i + k from by rw [Nat.mul_succ]; omega]
      exact ih i k (by simpa using h) hk

/-- Symbol `24·i + k` of a frame is symbol `k` of pixel `i` (R51). -/
theorem frameSymbols_getElem? (px : Vector Color Config.numPixels) {i k : Nat} (hi : i < Config.numPixels) (hk : k < 24) :
    (frameSymbols px)[24 * i + k]? = (pixelSymbols px[i])[k]? := by
  unfold frameSymbols
  rw [flatMap_getElem?_of_const_length pixelSymbols 24 pixelSymbols_length _ i k (by simpa using hi) hk]
  simp

theorem frameSymbols_length (px : Vector Color Config.numPixels) : (frameSymbols px).length = 600 := by
  unfold frameSymbols
  rw [List.length_flatMap]
  simp only [pixelSymbols_length, List.map_const', List.sum_replicate, Vector.length_toList]
  rfl

theorem wireFrame_length (px : Vector Color Config.numPixels) : (wireFrame px).length = 601 := by
  simp [wireFrame, frameSymbols_length]

/-- A black frame is 600 zero symbols (R114 (c)). -/
theorem frameSymbols_blackFrame : frameSymbols blackFrame = List.replicate 600 .b0 := by decide +kernel

/-- One more whole frame on the wire. -/
theorem WholeFrames.append {out : List LedSymbol} (h : WholeFrames out) (px : Vector Color Config.numPixels) :
    WholeFrames (out ++ wireFrame px) := by
  obtain ⟨frames, rfl⟩ := h
  exact ⟨frames ++ [px], by simp⟩

end Sys2Proof.Machine
end

