-- ==== Sys2Proof/Laws/Exec.lean ====
section
/-! SUPPORT. For each operation, everything it can do when it answers a next state, and where each mode stops it. -/

namespace Sys2Proof.Machine

/-- `INIT` answers a next state only in Uninit: it claims the channel or takes `ConfigFatal` (R103, R104). -/
theorem execInit_next {pin : Byte} {s t : State} (h : exec (.init pin) s = .next t) :
    s.ledMode = .uninit ∧
      ((s.chanFree = true ∧ t = { s with ledPin := pin, px := blackFrame, ledMode := .ready }) ∨
       (s.chanFree = false ∧ t = raiseConfigFatal s)) := by
  simp only [exec, execInit] at h
  cases hm : s.ledMode <;> simp only [hm] at h
  · split at h
    · next hc => cases h; exact ⟨rfl, .inl ⟨hc, rfl⟩⟩
    · next hc => cases h; exact ⟨rfl, .inr ⟨by simpa using hc, rfl⟩⟩
  · cases h
  · cases h

/-- `SETPX` (R105). -/
theorem execSetpx_next {idx r g b : Byte} {s t : State} (h : exec (.setpx idx r g b) s = .next t) :
    s.ledMode = .ready ∧ t = { s with px := setPixel s.px (indexOf idx) (colorOf r g b) } := by
  obtain ⟨hm, h⟩ := whenReady_next (s := s) h
  cases h; exact ⟨hm, rfl⟩

/-- `CLEAR` (R106). -/
theorem execClear_next {s t : State} (h : exec .clear s = .next t) :
    s.ledMode = .ready ∧ t = { s with px := blackFrame } := by
  obtain ⟨hm, h⟩ := whenReady_next (s := s) h
  cases h; exact ⟨hm, rfl⟩

/-- `FLUSH` (R107). -/
theorem execFlush_next {s t : State} (h : exec .flush s = .next t) : s.ledMode = .ready ∧ t = flushFrame s := by
  obtain ⟨hm, h⟩ := whenReady_next (s := s) h
  cases h; exact ⟨hm, rfl⟩

/-- `DIGIT` (R111). -/
theorem execDigit_next {v : Byte} {s t : State} (h : exec (.digit v) s = .next t) :
    s.ledMode = .ready ∧
      ((v.toNat ≤ 9 ∧ t = flushFrame { s with px := digitFrame s.rom v.toNat }) ∨ (9 < v.toNat ∧ t = s)) := by
  obtain ⟨hm, h⟩ := whenReady_next (s := s) h
  refine ⟨hm, ?_⟩
  unfold digitOf at h
  by_cases hv : v.toNat ≤ 9
  · rw [if_pos hv] at h; cases h; exact .inl ⟨hv, rfl⟩
  · rw [if_neg hv] at h; cases h; exact .inr ⟨by omega, rfl⟩

/-- `DRAWCH` (R132). -/
theorem execDrawch_next {x y c : Byte} {s t : State} (h : exec (.drawch x y c) s = .next t) :
    s.ledMode ≠ .halted ∧ t = { s with fb := drawChar s.epoch s.rom (coordOf x) (coordOf y) c s.fb } := by
  obtain ⟨hm, h⟩ := whenLive_next (s := s) h
  cases h; exact ⟨hm, rfl⟩

/-- `DRAWSTR` (R133). -/
theorem execDrawstr_next {x y : Byte} {text : List Byte} {s t : State} (h : exec (.drawstr x y text) s = .next t) :
    s.ledMode ≠ .halted ∧
      t = { s with fb := drawText s.epoch s.rom (coordOf x) (coordOf x) (coordOf y) text s.fb } := by
  obtain ⟨hm, h⟩ := whenLive_next (s := s) h
  cases h; exact ⟨hm, rfl⟩

/-- `RENDER` (R134). -/
theorem execRender_next {x y : Byte} {text : List Byte} {s t : State} (h : exec (.render x y text) s = .next t) :
    s.ledMode ≠ .halted ∧
      t = transfer { s with fb := drawText s.epoch s.rom (coordOf x) (coordOf x) (coordOf y) text clearedMemory } := by
  obtain ⟨hm, h⟩ := whenLive_next (s := s) h
  exact ⟨hm, (Host.Outcome.next.inj h).symm⟩

/-- `TAKE` (R162). -/
theorem execTake_next {k : Byte} {s t : State} (h : exec (.take k) s = .next t) :
    s.ledMode ≠ .halted ∧ ∃ n, inputOf k = some n ∧ t = takeEvent n s := by
  obtain ⟨hm, h⟩ := whenLive_next (s := s) h
  obtain ⟨n, hn, h⟩ := withInput_next h
  cases h; exact ⟨hm, n, hn, rfl⟩

/-- `EDGE` (R161). -/
theorem execEdge_next {k : Byte} {now : Tick} {s t : State} (h : exec (.edge k now) s = .next t) :
    s.ledMode ≠ .halted ∧ ∃ n, inputOf k = some n ∧ t = edgeHandler n now s := by
  obtain ⟨hm, h⟩ := whenLive_next (s := s) h
  obtain ⟨n, hn, h⟩ := withInput_next h
  cases h; exact ⟨hm, n, hn, rfl⟩

/-- `FLUSH` completes in Ready; from an idle generator it sends one whole frame and its latch (R107). -/
theorem execFlush_of_idle {s : State} (hm : s.ledMode = .ready) (hq : s.queue = []) (hs : s.shifter = []) :
    exec .flush s = .next { s with ledOut := s.ledOut ++ wireFrame s.px } :=
  (whenReady_of_ready hm _).trans (by rw [flushFrame_eq hq hs])

/-- `CLEAR` completes in Ready (R106). -/
theorem execClear_of_ready {s : State} (hm : s.ledMode = .ready) : exec .clear s = .next { s with px := blackFrame } :=
  whenReady_of_ready hm _

/-- `SETPX` completes in Ready (R105). -/
theorem execSetpx_of_ready (idx r g b : Byte) {s : State} (hm : s.ledMode = .ready) :
    exec (.setpx idx r g b) s = .next { s with px := setPixel s.px (indexOf idx) (colorOf r g b) } :=
  whenReady_of_ready hm _

/-- `DRAWCH` completes out of Halted (R132). -/
theorem execDrawch_of_live (x y c : Byte) {s : State} (hm : s.ledMode ≠ .halted) :
    exec (.drawch x y c) s = .next { s with fb := drawChar s.epoch s.rom (coordOf x) (coordOf y) c s.fb } :=
  whenLive_of_live hm _

/-- `DRAWSTR` completes out of Halted (R133). -/
theorem execDrawstr_of_live (x y : Byte) (text : List Byte) {s : State} (hm : s.ledMode ≠ .halted) :
    exec (.drawstr x y text) s =
      .next { s with fb := drawText s.epoch s.rom (coordOf x) (coordOf x) (coordOf y) text s.fb } :=
  whenLive_of_live hm _

/-- `RENDER` completes out of Halted (R134). -/
theorem execRender_of_live (x y : Byte) (text : List Byte) {s : State} (hm : s.ledMode ≠ .halted) :
    exec (.render x y text) s =
      .next (transfer { s with fb := drawText s.epoch s.rom (coordOf x) (coordOf x) (coordOf y) text clearedMemory }) :=
  whenLive_of_live hm _

/-- `DIGIT v` of a digit completes in Ready; from an idle generator it sends the glyph's frame (R111). -/
theorem execDigit_of_idle {v : Byte} {s : State} (hm : s.ledMode = .ready) (hq : s.queue = []) (hs : s.shifter = [])
    (hv : v.toNat ≤ 9) :
    exec (.digit v) s =
      .next { s with px := digitFrame s.rom v.toNat, ledOut := s.ledOut ++ wireFrame (digitFrame s.rom v.toNat) } := by
  refine (whenReady_of_ready hm _).trans ?_
  unfold digitOf
  rw [if_pos hv]
  exact congrArg _ (flushFrame_eq (s := { s with px := digitFrame s.rom v.toNat }) hq hs)

/-- `DIGIT v` above 9 is rejected as a whole (R111). -/
theorem execDigit_of_gt {v : Byte} {s : State} (hm : s.ledMode = .ready) (hv : 9 < v.toNat) : exec (.digit v) s = .next s := by
  refine (whenReady_of_ready hm _).trans ?_
  unfold digitOf
  rw [if_neg (by omega)]

/-- In Halted no operation has a step (R181). -/
theorem exec_of_halted (i : Instr) {s : State} (hm : s.ledMode = .halted) : exec i s = .fault .halted := by
  cases i with
  | init pin => simp [exec, execInit, hm]
  | setpx | clear | flush | digit => exact whenReady_of_halted hm _
  | drawch | drawstr | render | take | edge => exact whenLive_of_halted hm _

/-- An operation that answers a next state ran out of Halted. -/
theorem live_of_exec_next {i : Instr} {s t : State} (h : exec i s = .next t) : s.ledMode ≠ .halted := by
  intro hm
  rw [exec_of_halted i hm] at h
  cases h

/-- `TAKE` of an input that exists completes out of Halted (R162). -/
theorem execTake_of_live {k : Byte} {n : InputId} {s : State} (hm : s.ledMode ≠ .halted) (hn : inputOf k = some n) :
    exec (.take k) s = .next (takeEvent n s) := by
  show whenLive s _ = _
  rw [whenLive_of_live hm, withInput_of_some hn]

/-- `EDGE` of an input that exists completes out of Halted (R161). -/
theorem execEdge_of_live {k : Byte} {n : InputId} (now : Tick) {s : State} (hm : s.ledMode ≠ .halted) (hn : inputOf k = some n) :
    exec (.edge k now) s = .next (edgeHandler n now s) := by
  show whenLive s _ = _
  rw [whenLive_of_live hm, withInput_of_some hn]

end Sys2Proof.Machine
end

