-- ==== Sys2Proof/Laws/PerInstr.lean ====
section
/-! SUPPORT. Statements made once for each instruction. Family EncodeShape: a record begins with its instruction's opcode byte and has
the length its format gives (R72, R73, R76). -/

namespace Sys2Proof.Laws

/-- The shape of an instruction's record. -/
def EncodeShape.Statement (i : Instr) : Prop :=
  (encode i).head? = some i.opcode.byte ∧ (encode i).length = i.recordLength

theorem EncodeShape.init (pin : Byte) : EncodeShape.Statement (.init pin) := ⟨rfl, rfl⟩
theorem EncodeShape.setpx (idx r g b : Byte) : EncodeShape.Statement (.setpx idx r g b) := ⟨rfl, rfl⟩
theorem EncodeShape.clear : EncodeShape.Statement .clear := ⟨rfl, rfl⟩
theorem EncodeShape.flush : EncodeShape.Statement .flush := ⟨rfl, rfl⟩
theorem EncodeShape.digit (v : Byte) : EncodeShape.Statement (.digit v) := ⟨rfl, rfl⟩
theorem EncodeShape.drawch (x y c : Byte) : EncodeShape.Statement (.drawch x y c) := ⟨rfl, rfl⟩
theorem EncodeShape.drawstr (x y : Byte) (text : List Byte) : EncodeShape.Statement (.drawstr x y text) :=
  ⟨rfl, by simp only [encode, Instr.operands, Instr.recordLength, List.length_cons]; omega⟩
theorem EncodeShape.render (x y : Byte) (text : List Byte) : EncodeShape.Statement (.render x y text) :=
  ⟨rfl, by simp only [encode, Instr.operands, Instr.recordLength, List.length_cons]; omega⟩
theorem EncodeShape.take (i : Byte) : EncodeShape.Statement (.take i) := ⟨rfl, rfl⟩
theorem EncodeShape.edge (i : Byte) (now : Tick) : EncodeShape.Statement (.edge i now) := ⟨rfl, rfl⟩

end Sys2Proof.Laws
end

