-- ==== Sys2Proof/Laws/Step.lean ====
section
/-! SUPPORT. What one step does, case by case. -/

namespace Sys2Proof.Machine

/-- Where a record is next, the step's work is that record. -/
theorem nextWork_of_recordNext {s : State} (h : s.recordNext) : nextWork s = .record := by
  obtain ⟨hm, hs, he⟩ := h
  have hempty : s.stream.isEmpty = false := by cases hstr : s.stream <;> simp_all
  have : liveWork s = .record := by
    unfold liveWork
    cases henv : s.env with
    | nil => simp [hempty]
    | cons e rest =>
      have hdue := he e (by simp [henv])
      simp [State.isDue, hempty, Nat.not_le.mpr hdue]
  unfold nextWork
  cases hmode : s.ledMode <;> simp_all

/-- Where a record is next, the step fetches and executes it. -/
theorem step_of_recordNext {s : State} (h : s.recordNext) :
    step s = match decode s.stream with
      | .ok (i, rest) => retire rest (exec i s)
      | .error e => .refused (refusalOf e) := by
  unfold step
  rw [nextWork_of_recordNext h]
  rfl

/-- An input of the environment that is due, or that is a reset while the block is Halted, is the step's work (log 3). -/
theorem step_of_input {s : State} {e : Scheduled} {rest : List Scheduled} (he : s.env = e :: rest)
    (hd : (s.ledMode ≠ .halted ∧ (e.due ≤ s.spos ∨ s.stream = [])) ∨ (s.ledMode = .halted ∧ e.input = .rst)) :
    step s = .next (applyInput e.input { s with env := rest }) := by
  have hw : nextWork s = .input e.input rest := by
    rcases hd with ⟨hm, hd⟩ | ⟨hm, hi⟩
    · have hdue : s.isDue e = true := by rcases hd with h | h <;> simp [State.isDue, h]
      unfold nextWork liveWork
      cases hmode : s.ledMode <;> simp_all
    · simp [nextWork, hm, haltedWork, he, fromReset, hi]
  unfold step
  rw [hw]

/-- In Halted only a reset the environment asserts is the step's work. -/
theorem fromReset_spec : ∀ (env : List Scheduled), fromReset env = [] ∨
    ∃ e rest, fromReset env = e :: rest ∧ e.input = .rst ∧ e ∈ env := by
  intro env
  induction env with
  | nil => exact .inl rfl
  | cons e rest ih =>
    cases hi : e.input with
    | rst => exact .inr ⟨e, rest, by simp [fromReset, hi], hi, by simp⟩
    | sample i l now =>
      simp only [fromReset, hi]
      rcases ih with h | ⟨e', rest', h₁, h₂, h₃⟩
      · exact .inl h
      · exact .inr ⟨e', rest', h₁, h₂, by simp [h₃]⟩
    | chanFree free =>
      simp only [fromReset, hi]
      rcases ih with h | ⟨e', rest', h₁, h₂, h₃⟩
      · exact .inl (by rw [h])
      · exact .inr ⟨e', { due := 0, input := .chanFree free } :: rest', by rw [h₁], h₂, by simp [h₃]⟩

/-- Everything a step from `s` to `t` can be. -/
inductive StepCase (s t : State) : Prop where
  /-- Nothing is presented, and the block waits. -/
  | wait (live : s.ledMode ≠ .halted) (stream : s.stream = []) (env : s.env = []) (same : t = s)
  /-- An input of the environment lands; in Halted it is a reset. -/
  | input (e : EnvInput) (rest : List Scheduled) (from_env : ∃ x ∈ s.env, x.input = e)
      (halted : s.ledMode = .halted → e = .rst) (eq : t = applyInput e { s with env := rest })
  /-- A record executes. -/
  | record (next : s.recordNext) (i : Instr) (rest : List Byte) (u : State) (decoded : decode s.stream = .ok (i, rest))
      (executed : exec i s = .next u) (eq : t = u.pastRecord rest)

/-- A record that answers a next state. -/
theorem record_next {s t : State} (hr : s.recordNext)
    (h : (match fetch s with
      | .ok (i, rest) => retire rest (exec i s)
      | .error e => (.refused (refusalOf e) : Result)) = .next t) : StepCase s t := by
  unfold fetch at h
  cases hd : decode s.stream with
  | error e => rw [hd] at h; cases h
  | ok p =>
    obtain ⟨i, rest⟩ := p
    rw [hd] at h
    cases hx : exec i s with
    | next u => simp only [hx, retire] at h; cases h; exact .record hr i rest u hd hx rfl
    | fault f => simp only [hx, retire] at h; cases h
    | refused r => simp only [hx, retire] at h; cases h

/-- A step out of Halted. -/
theorem live_next {s t : State} (hm : s.ledMode ≠ .halted) (hw : nextWork s = liveWork s) (h : step s = .next t) :
    StepCase s t := by
  unfold step at h
  rw [hw] at h
  unfold liveWork at h
  cases henv : s.env with
  | nil =>
    rw [henv] at h
    by_cases hstr : s.stream.isEmpty = true
    · simp only [hstr, if_true] at h; cases h
      exact .wait hm (List.isEmpty_iff.mp hstr) henv rfl
    · simp only [hstr] at h
      exact record_next ⟨hm, fun hs => hstr (by simp [hs]), fun e he => by simp [henv] at he⟩ h
  | cons e rest =>
    rw [henv] at h
    by_cases hd : s.isDue e = true
    · simp only [hd, if_true] at h; cases h
      exact .input e.input rest ⟨e, by simp [henv], rfl⟩ (fun hh => absurd hh hm) rfl
    · simp only [hd] at h
      have hn : ¬ (e.due ≤ s.spos ∨ s.stream = []) := by simpa [State.isDue] using hd
      refine record_next ⟨hm, fun hs => hn (.inr hs), fun e' he => ?_⟩ h
      obtain rfl : e = e' := by simpa [henv] using he
      exact Nat.not_le.mp fun hle => hn (.inl hle)

/-- Everything a step that answers a next state can have done. -/
theorem step_next_cases {s t : State} (h : step s = .next t) : StepCase s t := by
  cases hmode : s.ledMode with
  | uninit => exact live_next (by simp [hmode]) (by simp [nextWork, hmode]) h
  | ready => exact live_next (by simp [hmode]) (by simp [nextWork, hmode]) h
  | halted =>
    unfold step at h
    simp only [nextWork, hmode, haltedWork] at h
    rcases fromReset_spec s.env with hn | ⟨e, rest, hf, hi, hmem⟩
    · rw [hn] at h; cases h
    · simp only [hf] at h; cases h
      exact .input e.input rest ⟨e, hmem, rfl⟩ (fun _ => hi) (by rw [hmode])

end Sys2Proof.Machine
end

