-- ==== Sys2Proof/Tests/Slice0.lean ====
section
/-! SUPPORT. Checks of the model against the spec's own worked values (95_test_vectors.md, 30_encoding.md section 9), the ill-formed
terms that WellFormed refuses, and a witness for the hypotheses of each statement in Certificates/Slice0/Obligations.lean. -/

namespace Sys2Proof.Tests

open Sys2Proof Sys2Proof.Machine

/-! ### WellFormed refuses -/

theorem test_wf_refuses_long_drawstr : (Instr.drawstr 0#8 0#8 (List.replicate 256 0x41#8)).wellFormed = false := by decide +kernel
theorem test_wf_refuses_long_render : (Instr.render 0#8 0#8 (List.replicate 256 0x41#8)).wellFormed = false := by decide +kernel
theorem test_wf_refuses_take_2 : (Instr.take 2#8).wellFormed = false := by decide
theorem test_wf_refuses_edge_2 : (Instr.edge 2#8 100000#32).wellFormed = false := by decide

/-! ### Decoding: words written out from R72 and R73, vectors V-ENC-1 to V-ENC-8 -/

theorem test_decode_init : decode [0x01#8, 0x07#8] = .ok (.init 7#8, []) := by decide
/-- V-ENC-1. -/
theorem test_decode_setpx : decode [0x02#8, 0x03#8, 0x0A#8, 0x14#8, 0x1E#8] = .ok (.setpx 3#8 10#8 20#8 30#8, []) := by decide
theorem test_decode_clear_flush : decode [0x03#8, 0x04#8] = .ok (.clear, [0x04#8]) := by decide
theorem test_decode_flush : decode [0x04#8] = .ok (.flush, []) := by decide
theorem test_decode_digit : decode [0x05#8, 0x09#8] = .ok (.digit 9#8, []) := by decide
theorem test_decode_drawch : decode [0x10#8, 0x05#8, 0x06#8, 0x48#8] = .ok (.drawch 5#8 6#8 0x48#8, []) := by decide
/-- V-ENC-2: the byte after the text is the next opcode. -/
theorem test_decode_drawstr : decode [0x11#8, 0x05#8, 0x00#8, 0x02#8, 0x48#8, 0x69#8, 0x03#8] =
    .ok (.drawstr 5#8 0#8 [0x48#8, 0x69#8], [0x03#8]) := by decide
/-- V-ENC-3: text bytes are not opcodes. -/
theorem test_decode_text_is_no_opcode : decode [0x11#8, 0x00#8, 0x00#8, 0x02#8, 0x03#8, 0x04#8] =
    .ok (.drawstr 0#8 0#8 [0x03#8, 0x04#8], []) := by decide
theorem test_decode_render : decode [0x12#8, 0x01#8, 0x02#8, 0x01#8, 0x41#8] = .ok (.render 1#8 2#8 [0x41#8], []) := by decide
theorem test_decode_take : decode [0x20#8, 0x01#8] = .ok (.take 1#8, []) := by decide
/-- V-ENC-4, and P4's first record: the tick's most significant byte comes first. -/
theorem test_decode_edge : decode [0x21#8, 0x01#8, 0xFF#8, 0xFF#8, 0xFF#8, 0xFF#8] = .ok (.edge 1#8 4294967295#32, []) ∧
    decode [0x21#8, 0x00#8, 0x00#8, 0x01#8, 0x86#8, 0xA0#8] = .ok (.edge 0#8 100000#32, []) := by decide
/-- V-ENC-5. -/
theorem test_decode_reserved : [0x00#8, 0x06#8, 0x13#8, 0x22#8, 0xFF#8].all
    (fun b => decide (decode [b] = .error (.reservedOpcode b))) = true := by decide
/-- V-ENC-6, V-ENC-7. -/
theorem test_decode_truncated : decode [0x02#8, 0x03#8, 0x0A#8] = .error .truncated ∧
    decode [0x12#8, 0x00#8, 0x00#8, 0x05#8, 0x48#8] = .error .truncated := by decide
/-- V-ENC-8, V-DB-17. -/
theorem test_decode_input_2 : decode [0x20#8, 0x02#8] = .error (.noSuchInput 2#8) := by decide
/-- The table's numbering: the opcode is the low byte. -/
theorem test_table_word : decodeTableWord 16 0x0701 = some (.init 7#8) ∧
    decodeTableWord 48 0xA08601000021 = some (.edge 0#8 100000#32) ∧ decodeTableWord 32 0x02000511 = some (.drawstr 5#8 0#8 [0#8, 0#8]) := by
  decide

/-! ### One step on a small state -/

/-- What a result's next state shows, if it has one. -/
def after {α : Type} (r : Result) (f : State → α) : Option α :=
  match r with
  | .next t => some (f t)
  | _ => none

/-- Ready, frame zero. -/
def ready : State := { State.reset with ledMode := .ready, px := blackFrame }

/-- Ready, with one pixel set. -/
def readyWith (i : Nat) (c : Color) : State := { ready with px := setPixel blackFrame i c }

/-- Halted after a configuration error. -/
def stopped : State := { State.reset with ledMode := .halted }

/-- The fixture font of 95_test_vectors.md: `H`, `A` and `i`. -/
def fixtureRom : Rom where
  fontUpper := ((Vector.replicate 26 (Vector.replicate 5 0#8)).set 7 #v[0x7F#8, 0x08#8, 0x08#8, 0x08#8, 0x7F#8]).set 0
    #v[0x7E#8, 0x11#8, 0x11#8, 0x11#8, 0x7E#8]
  fontLower := (Vector.replicate 26 (Vector.replicate 5 0#8)).set 8 #v[0x00#8, 0x44#8, 0x7D#8, 0x40#8, 0x00#8]
  digits := Rom.fixed.digits

/-- The framebuffer all zero, the fixture font. -/
def zeroFb : State := { State.reset with fb := clearedMemory, rom := fixtureRom }

/-- The bytes that are not zero, with their addresses. -/
def nonZero (s : State) : List (Nat × Byte) := s.fb.filter fun c => decide (c.2 ≠ 0#8)

/-- The symbols of some bits, as 95_test_vectors.md writes a frame. -/
def symbolsOf (bytes : List Byte) : List LedSymbol := bytes.flatMap sendByte

/-- V-MAP-1. -/
theorem test_map : [(0, 0), (4, 0), (0, 1), (4, 1), (2, 2), (0, 3), (4, 3), (4, 4)].map (fun p => phys p.1 p.2) =
    [0, 4, 9, 5, 12, 19, 15, 24].map some ∧ phys 5 0 = none ∧ phys 0 5 = none := by decide
/-- V-MAP-2. -/
theorem test_map_inverse : [7, 12, 16].map (logicalOf 5) = [(2, 1), (2, 2), (3, 3)] := by decide
/-- V-MAP-3. -/
theorem test_map_eight : [(0, 1), (7, 1), (3, 6), (3, 7)].map (fun p => physOf 8 p.1 p.2) = [15, 8, 51, 60] := by decide
/-- The constants of R5 to R7 and R9: 25 pixels, 1024 bytes, 50000 ticks; 600 bit periods at 800 kHz are 750 µs (R213). -/
theorem test_constants : Config.numPixels = 25 ∧ Config.fbBytes = 1024 ∧ Config.window = 50000 ∧
    Config.numPixels * Config.bitsPerPixel = 600 ∧ 600 * 1000000 / Config.bitRateHz = 750 := by decide
/-- The bits of a byte leave most significant first (R108). -/
theorem test_send_byte : sendByte 0x01#8 = [.b0, .b0, .b0, .b0, .b0, .b0, .b0, .b1] := by decide

/-- V-INIT-1, fetched as the first record after reset. -/
theorem test_init_ready : after (step (State.reset.withFetchWord 16 0x0701))
    (fun t => (t.ledMode, t.ledPin, t.px, t.ledOut, t.spos)) = some (.ready, 7#8, blackFrame, [], 1) := by decide +kernel
/-- V-INIT-2 and P5. -/
theorem test_init_config_fatal : after (exec (.init 7#8) { State.reset with chanFree := false })
    (fun t => (t.ledMode, t.halted, t.ledOut)) = some (.halted, true, []) := by decide +kernel
/-- V-SET-1. -/
theorem test_setpx_last : after (exec (.setpx 24#8 1#8 2#8 3#8) ready) (fun t => t.px[24]) =
    some { r := 1#8, g := 2#8, b := 3#8 } := by decide +kernel
/-- V-SET-2, V-SET-3: no wrap to 255 mod 25. -/
theorem test_setpx_off : after (exec (.setpx 25#8 1#8 2#8 3#8) ready) State.px = some blackFrame ∧
    after (exec (.setpx 255#8 9#8 9#8 9#8) ready) State.px = some blackFrame := by decide +kernel
/-- V-CLR-1. -/
theorem test_clear : after (exec .clear (readyWith 7 { r := 1#8, g := 2#8, b := 3#8 })) State.px = some blackFrame := by decide +kernel
/-- V-FLU-1. -/
theorem test_flush_first_pixel : after (exec .flush (readyWith 0 { r := 0x80#8, g := 0x01#8, b := 0xFF#8 })) State.ledOut =
    some (symbolsOf [0x01#8, 0x80#8, 0xFF#8] ++ List.replicate 576 .b0 ++ [.latch]) := by decide +kernel
/-- V-FLU-2. -/
theorem test_flush_last_bit : after (exec .flush (readyWith 24 { r := 0#8, g := 0#8, b := 1#8 })) State.ledOut =
    some (List.replicate 599 .b0 ++ [.b1, .latch]) := by decide +kernel
/-- V-DIG-1, V-DIG-4, V-DIG-5: P2's frame, and pixel 7's old content is gone. -/
theorem test_digit_five : after (exec (.digit 5#8) { readyWith 7 { r := 1#8, g := 2#8, b := 3#8 } with rom := { fixtureRom with
      digits := (Vector.replicate 10 (Vector.replicate 5 0#5)).set 5 #v[0b11111#5, 0b10000#5, 0b11111#5, 0b00001#5, 0b11111#5] } })
    (fun t => ((List.range 25).filter (fun i => t.px[i]? == some { r := 255#8, g := 0#8, b := 0#8 }), t.px[7], t.ledOut.count .b1)) =
    some ([0, 1, 2, 3, 4, 9, 10, 11, 12, 13, 14, 15, 20, 21, 22, 23, 24], { r := 0#8, g := 0#8, b := 0#8 }, 136) := by decide +kernel
/-- V-DIG-3. -/
theorem test_digit_ten : after (exec (.digit 10#8) (readyWith 7 { r := 1#8, g := 2#8, b := 3#8 })) (fun t => (t.px[7], t.ledOut)) =
    some ({ r := 1#8, g := 2#8, b := 3#8 }, []) := by decide +kernel

/-- V-CH-3: clipped on the right and at the bottom. -/
theorem test_drawch_clipped : after (exec (.drawch 125#8 60#8 0x48#8) zeroFb) nonZero =
    some [(1021, 0xF0#8), (1022, 0x80#8), (1023, 0x80#8)] := by decide +kernel
/-- V-CH-6: OR keeps bit 7 of byte 5. -/
theorem test_drawch_ors : after (exec (.drawch 5#8 0#8 0x48#8) { zeroFb with fb := Memory.write clearedMemory 5 0x80#8 }) nonZero =
    some [(5, 0xFF#8), (6, 0x08#8), (7, 0x08#8), (8, 0x08#8), (9, 0x7F#8)] := by decide +kernel
/-- V-STR-4: the second cell is clipped and does not wrap into the next page. -/
theorem test_drawstr_clipped : after (exec (.drawstr 120#8 0#8 [0x48#8, 0x48#8]) zeroFb) nonZero =
    some [(120, 0x7F#8), (121, 0x08#8), (122, 0x08#8), (123, 0x08#8), (124, 0x7F#8), (126, 0x7F#8), (127, 0x08#8)] := by
  decide +kernel
/-- V-STR-5: the cursor does not wrap modulo 256. -/
theorem test_drawstr_no_wrap : after (exec (.drawstr 250#8 0#8 [0x48#8, 0x48#8]) zeroFb) nonZero = some [] := by decide +kernel
/-- P3's fourth record, on a framebuffer with old content: a newline, a space that takes a cell, and straddled pages. -/
theorem test_render_p3 : after (exec (.render 0#8 4#8 [0x48#8, 0x0A#8, 0x20#8, 0x69#8])
      { State.reset with fb := [(5, 0xFF#8)], rom := fixtureRom }) (fun t => (nonZero t, t.fb.length)) =
    some ([(0, 0xF0#8), (1, 0x80#8), (2, 0x80#8), (3, 0x80#8), (4, 0xF0#8), (128, 0x07#8), (132, 0x07#8), (135, 0x40#8),
      (136, 0xD0#8), (263, 0x04#8), (264, 0x07#8), (265, 0x04#8)], 1024) := by decide +kernel
/-- V-REN-1: one frame of 1024 bytes, its ends shown. -/
theorem test_render_empty : after (exec (.render 0#8 0#8 []) State.reset)
    (fun t => t.dispOut.map fun f => (f.length, f[0]?, f[1023]?)) = some [(1024, some 0x00#8, some 0x00#8)] := by decide +kernel

/-- V-DB-11 and V-DB-12's shape: the answer is the value before, and only the named input's. -/
theorem test_take : after (exec (.take 0#8) State.reset) State.takeOut = some [false] ∧
    after (exec (.take 1#8) { State.reset with gate1 := { pending := true, lastAccepted := 7#32, prev := true } })
      (fun t => (t.takeOut, t.gate1)) = some ([true], { pending := false, lastAccepted := 7#32, prev := true }) := by decide +kernel
/-- V-DB-2, V-DB-3: the comparison is strict. -/
theorem test_edge_first : after (exec (.edge 0#8 49999#32) State.reset) State.gate0 = some Gate.reset ∧
    after (exec (.edge 0#8 50000#32) State.reset) State.gate0 = some { pending := true, lastAccepted := 50000#32, prev := true } := by
  decide +kernel
/-- V-DB-8, V-DB-9: the tick has wrapped. -/
theorem test_edge_wrap :
    after (exec (.edge 1#8 42703#32) { State.reset with gate1 := { pending := false, lastAccepted := 4294960000#32, prev := true } })
      (fun t => t.gate1.lastAccepted) = some 4294960000#32 ∧
    after (exec (.edge 1#8 42704#32) { State.reset with gate1 := { pending := false, lastAccepted := 4294960000#32, prev := true } })
      (fun t => t.gate1.lastAccepted) = some 42704#32 := by decide +kernel
/-- V-DB-10: a tick that runs backwards. -/
theorem test_edge_backwards : edgeAccepted 90000#32 100000#32 = true ∧ edgeAccepted 100000#32 100000#32 = false := by decide
/-- V-DB-15, V-DB-16: accept and take together; the set wins. -/
theorem test_same_cycle : nextPending true false true = true ∧ nextPending true true true = true ∧ nextPending false true true = false := by
  decide
/-- V-DB-18: samples 1, 0, 0, 1, 1, 0, 1 after the pulled-up idle level rise at the fourth and the seventh. -/
theorem test_pin_samples : [(true, true), (true, false), (false, false), (false, true), (true, true), (true, false), (false, true)].map
    (fun p => rise p.1 p.2) = [false, false, false, true, false, false, true] := by decide
/-- A rise runs the handler with the tick it reads (R164). -/
theorem test_pin_rise : ({ Gate.reset with prev := false } : Gate).onSample true 50000#32 =
    { pending := true, lastAccepted := 50000#32, prev := true } := by decide

/-! ### Witnesses

One theorem for each statement with hypotheses: a concrete state and operands that meet them together, for each clause at a boundary
of its range. -/

/-- The state with a stimulus stream. -/
def presented (s : State) (bs : List Byte) : State := { s with stream := bs }

/-- The state with one input of the environment, due at once. -/
def scheduled (s : State) (e : EnvInput) : State := { s with env := [{ due := 0, input := e }] }

theorem recordNext_presented {s : State} {bs : List Byte} (hm : s.ledMode ≠ .halted) (he : s.env = []) (hb : bs ≠ []) :
    (presented s bs).recordNext :=
  ⟨hm, hb, fun e h => by rw [show (presented s bs).env = [] from he] at h; cases h⟩

theorem reset_not_halted : State.reset.ledMode ≠ .halted := by decide

theorem render_completes {x y : Byte} {text : List Byte} (s : State) (hm : s.ledMode ≠ .halted) :
    ∃ t, exec (.render x y text) s = .next t := ⟨_, execRender_of_live x y text hm⟩

theorem drawstr_completes {x y : Byte} {text : List Byte} (s : State) (hm : s.ledMode ≠ .halted) :
    ∃ t, exec (.drawstr x y text) s = .next t := ⟨_, execDrawstr_of_live x y text hm⟩

theorem zeroFb_read (a : Nat) (h : a < 1024) : zeroFb.fbRead a = 0#8 := by
  unfold State.fbRead
  rw [show zeroFb.fb = clearedMemory by simp only [zeroFb]]
  exact clearedMemory_read _ h

/-- The longest text and the last input. -/
theorem witness_DecodeReturnsEveryEncodedInstruction : (Instr.drawstr 0#8 255#8 (List.replicate 255 0x0A#8)).wellFormed = true ∧
    (Instr.edge 1#8 4294967295#32).wellFormed = true ∧ (Instr.take 0#8).wellFormed = true := by decide +kernel

theorem witness_DecoderAcceptsOnlyEncodings : decode [0x12#8, 0x00#8, 0x00#8, 0x00#8, 0x04#8] = .ok (.render 0#8 0#8 [], [0x04#8]) := by
  decide

/-- Each reserved range at both its ends, and a stream that begins with a reserved byte. -/
theorem witness_ReservedOpcodesAreRefused :
    [0x00#8, 0x06#8, 0x0F#8, 0x13#8, 0x1F#8, 0x22#8, 0xFF#8].all
      (fun b => decide (decode [b, 0x01#8] = .error (.reservedOpcode b))) = true ∧
    (presented State.reset [0x22#8]).recordNext ∧ (presented State.reset [0x22#8]).stream = 0x22#8 :: [] :=
  ⟨by decide, recordNext_presented reset_not_halted rfl (by simp), rfl⟩

/-- The longest and the shortest prefix of a record. -/
theorem witness_TruncatedRecordsAreRefused : (Instr.setpx 3#8 10#8 20#8 30#8).wellFormed = true ∧
    4 < (Instr.setpx 3#8 10#8 20#8 30#8).recordLength ∧ 0 < Instr.clear.recordLength ∧
    (presented State.reset ((encode (.setpx 3#8 10#8 20#8 30#8)).take 4)).recordNext :=
  ⟨by decide, by decide, by decide, recordNext_presented reset_not_halted rfl (by decide)⟩

theorem witness_MissingInputsAreRefused : 2 ≤ (2#8 : Byte).toNat ∧ 2 ≤ (255#8 : Byte).toNat ∧ State.reset.ledMode ≠ .halted := by decide

/-- A record that executes, one that is refused (`SETPX` in Uninit), and one that faults nowhere out of Halted. -/
theorem witness_StepExecutesTheDecodedRecord :
    (presented State.reset [0x21#8, 0x01#8, 0x00#8, 0x00#8, 0xC3#8, 0x50#8, 0x04#8]).recordNext ∧
    decode (presented State.reset [0x21#8, 0x01#8, 0x00#8, 0x00#8, 0xC3#8, 0x50#8, 0x04#8]).stream =
      .ok (.edge 1#8 50000#32, [0x04#8]) ∧
    (∃ t, exec (.edge 1#8 50000#32) (presented State.reset [0x21#8, 0x01#8, 0x00#8, 0x00#8, 0xC3#8, 0x50#8, 0x04#8]) = .next t) ∧
    (presented State.reset [0x04#8]).recordNext ∧ exec .flush (presented State.reset [0x04#8]) = .refused .ledNotReady :=
  ⟨recordNext_presented reset_not_halted rfl (by simp), by decide, ⟨_, rfl⟩, recordNext_presented reset_not_halted rfl (by simp), rfl⟩

/-- P4's first three records, with a rest that does not run. -/
theorem witness_StreamRunsItsRecordsInOrder :
    (∀ i ∈ [Instr.edge 0#8 100000#32, Instr.edge 0#8 110000#32, Instr.take 0#8], i.wellFormed = true) ∧
    (presented State.reset ([Instr.edge 0#8 100000#32, Instr.edge 0#8 110000#32, Instr.take 0#8].flatMap encode ++ [0x00#8])).env = [] ∧
    ∃ t, execAll [Instr.edge 0#8 100000#32, Instr.edge 0#8 110000#32, Instr.take 0#8]
      (presented State.reset ([Instr.edge 0#8 100000#32, Instr.edge 0#8 110000#32, Instr.take 0#8].flatMap encode ++ [0x00#8])) = .next t :=
  ⟨by decide, rfl, _, rfl⟩

theorem witness_OperationsLeaveTheStreamAndRomsAlone : ∃ t, exec (.setpx 24#8 1#8 2#8 3#8) ready = .next t := ⟨_, rfl⟩

theorem witness_NoStepChangesTheGlyphRoms : ∃ t, step (scheduled stopped .rst) = .next t :=
  ⟨_, step_of_input (e := { due := 0, input := .rst }) (rest := []) rfl (.inr ⟨rfl, rfl⟩)⟩

theorem witness_BlockWaitsForARecord : State.reset.ledMode ≠ .halted ∧ State.reset.stream = [] ∧ State.reset.env = [] :=
  ⟨by decide, rfl, rfl⟩

/-- With nothing scheduled and with a pin sample that is never handled. -/
theorem witness_HaltedHasNoStep : stopped.ledMode = .halted ∧ (∀ e ∈ stopped.env, e.input ≠ .rst) ∧
    (scheduled stopped (.sample .in0 false 0#32)).ledMode = .halted ∧
    (∀ e ∈ (scheduled stopped (.sample .in0 false 0#32)).env, e.input ≠ .rst) := by
  refine ⟨rfl, by simp [stopped, State.reset], rfl, ?_⟩
  simp [scheduled]

/-- Out of Halted, before a record whose number is reached, and with no record presented. -/
theorem witness_AssertedResetGivesResetValues :
    (scheduled stopped .rst).env = [{ due := 0, input := .rst }] ∧ (scheduled stopped .rst).ledMode = .halted ∧
    (scheduled (presented ready [0x04#8]) .rst).env = [{ due := 0, input := .rst }] ∧ 0 ≤ (scheduled (presented ready [0x04#8]) .rst).spos ∧
    ({ ready with env := [{ due := 9, input := .rst }] } : State).stream = [] := ⟨rfl, rfl, rfl, by decide, rfl⟩

/-- Both inputs; a rise, which needs `prev` low, and a fall. -/
theorem witness_RisingPinLevelRaisesTheEdge : State.reset.ledMode ≠ .halted ∧ inputOf 0#8 = some .in0 ∧ inputOf 1#8 = some .in1 ∧
    (scheduled State.reset (.sample .in0 false 60000#32)).env = [{ due := 0, input := .sample .in0 false 60000#32 }] ∧
    (State.reset.gate .in0).prev = true ∧
    (({ State.reset with gate1 := { Gate.reset with prev := false } } : State).gate .in1).prev = false ∧
    0 ≤ State.reset.spos := by decide +kernel

/-- Due before a record, with no record presented, and in Halted before a reset. -/
theorem witness_ChanFreeInputSetsTheLevel :
    (scheduled (presented ready [0x04#8]) (.chanFree false)).env = [{ due := 0, input := .chanFree false }] ∧
    (scheduled (presented ready [0x04#8]) (.chanFree false)).ledMode ≠ .halted ∧
    0 ≤ (scheduled (presented ready [0x04#8]) (.chanFree false)).spos ∧ State.reset.stream = [] ∧
    stopped.ledMode = .halted ∧ ({ due := 9, input := .rst } : Scheduled).input = .rst := by decide +kernel

/-- In Uninit an `INIT` record, and in Ready a reset. -/
theorem witness_OnlyInitAndResetChangeTheMode :
    (∃ t, exec (.init 7#8) State.reset = .next t ∧ t.ledMode ≠ State.reset.ledMode) ∧
    (∃ t, step (presented State.reset [0x01#8, 0x07#8]) = .next t ∧ (presented State.reset [0x01#8, 0x07#8]).ledMode = .uninit ∧
      t.ledMode ≠ (presented State.reset [0x01#8, 0x07#8]).ledMode) ∧
    (∃ t, step (scheduled ready .rst) = .next t ∧ (scheduled ready .rst).ledMode ≠ .uninit ∧ t.ledMode ≠ (scheduled ready .rst).ledMode) := by
  refine ⟨⟨_, rfl, by decide⟩, ⟨_, (step_of_recordNext (recordNext_presented reset_not_halted rfl (by simp))).trans rfl, rfl,
    fun h => nomatch h⟩, _, step_of_input (e := { due := 0, input := .rst }) (rest := []) rfl (.inl ⟨by decide, .inl (by decide)⟩),
    by decide, ?_⟩
  exact fun h => nomatch h

/-- A state for each clause. -/
theorem witness_InitClaimsTheChannelOrHalts : (State.reset.ledMode = .uninit ∧ State.reset.chanFree = true) ∧
    (({ State.reset with chanFree := false } : State).ledMode = .uninit ∧ ({ State.reset with chanFree := false } : State).chanFree = false) ∧
    ready.ledMode = .ready ∧ stopped.ledMode = .halted := by decide

/-- A state for each clause, and each of the four operations. -/
theorem witness_LedCommandsNeedReady : ready.ledMode = .ready ∧ State.reset.ledMode = .uninit ∧ stopped.ledMode = .halted ∧
    (∃ idx r g b, Instr.setpx 0#8 1#8 2#8 3#8 = .setpx idx r g b) ∧ (∃ v, Instr.digit 9#8 = .digit v) :=
  ⟨rfl, rfl, rfl, ⟨_, _, _, _, rfl⟩, _, rfl⟩

/-- The last legal and the first illegal index. -/
theorem witness_SetpxStoresOnePixel : ready.ledMode = .ready ∧ (24#8 : Byte).toNat < 25 ∧ 25 ≤ (25#8 : Byte).toNat := by decide

theorem witness_ClearBlackensTheFrame : ready.ledMode = .ready := rfl

/-- The same state serves `RepeatedFlushSendsTheSameStream`. -/
theorem witness_FlushSendsGreenRedBlueMsbFirst : ready.ledMode = .ready ∧ ready.queue = [] ∧ ready.shifter = [] := ⟨rfl, rfl, rfl⟩

theorem witness_RepeatedFlushSendsTheSameStream : ready.ledMode = .ready ∧ ready.queue = [] ∧ ready.shifter = [] := ⟨rfl, rfl, rfl⟩

/-- The smallest queue and the model's. -/
theorem witness_QueueDepthIsUnobservable : 1 ≤ 1 ∧ 1 ≤ Config.queueDepth := by decide

/-- The smallest matrix, this one's far corner on an even and an odd row, and the last index. -/
theorem witness_SerpentineMapIsABijection : 0 < 1 ∧ (4 < 5 ∧ 3 < 5 ∧ 3 % 2 = 1) ∧ (4 < 5 ∧ 4 % 2 = 0) ∧ 24 < 5 * 5 := by decide

/-- The last digit and the first value that is none. -/
theorem witness_DigitLightsItsGlyphInRed : ready.ledMode = .ready ∧ ready.queue = [] ∧ ready.shifter = [] ∧
    (9#8 : Byte).toNat = (9 : Fin 10).val ∧ 9 < (10#8 : Byte).toNat := ⟨rfl, rfl, rfl, rfl, by decide⟩

theorem witness_DigitIsClearSetpxFlush : ready.ledMode = .ready ∧ (9#8 : Byte).toNat ≤ 9 ∧ (0#8 : Byte).toNat ≤ 9 := by decide

theorem witness_DigitSendsEightOnesPerLitBit : ready.ledMode = .ready ∧ ready.queue = [] ∧ ready.shifter = [] ∧ (9#8 : Byte).toNat ≤ 9 :=
  ⟨rfl, rfl, rfl, by decide⟩

/-- The source's digit 5 stands in the fixed ROM (R8). -/
theorem fixed_digitFive : Rom.fixed.digits[5] = Config.digitFive := by simp [Rom.fixed]

theorem witness_DigitFiveLightsSeventeenPixels : ready.Inv ∧ ready.ledMode = .ready :=
  ⟨⟨rfl, fixed_digitFive, rfl, rfl, ⟨[], rfl⟩, fun h => absurd rfl h, fun _ h => nomatch h⟩, rfl⟩

/-- Both corners of the display, and the first coordinate outside it on each side. -/
theorem witness_PixelSetOrsOneBit : (0 ≤ (0 : Int) ∧ (0 : Int) < 128 ∧ (0 : Int) < 64) ∧ ((127 : Int) < 128 ∧ (63 : Int) < 64) ∧
    (-1 : Int) < 0 ∧ 128 ≤ (128 : Int) ∧ 64 ≤ (64 : Int) := by decide

/-- The codes on either side of the letters. -/
theorem witness_OnlyLettersHaveGlyphs : [0x00#8, 0x40#8, 0x5B#8, 0x60#8, 0x7B#8, 0xFF#8].all
    (fun c => !decide (0x41 ≤ c.toNat ∧ c.toNat ≤ 0x5A) && !decide (0x61 ≤ c.toNat ∧ c.toNat ≤ 0x7A)) = true ∧
    State.reset.ledMode ≠ .halted := by decide

/-- A pixel that `H` covers, a pixel at the display's last corner, and a byte in which there is no ink. -/
theorem witness_DrawchOrsTheGlyph : zeroFb.ledMode ≠ .halted ∧ inkAt fixtureRom 0x48#8 5 0 5 6 ∧ 127 < 128 ∧ 63 < 64 ∧
    ∀ u v : Nat, u < 128 → v < 64 → inkAt fixtureRom 0x20#8 5 0 u v → v / 8 * 128 + u ≠ 1023 := by
  refine ⟨by decide, ⟨_, rfl, 0, 6, by decide, by decide, by decide, by decide, by decide⟩, by decide, by decide, ?_⟩
  rintro u v _ _ ⟨g, hg, _⟩
  cases hg

/-- The second line's first character has ink at its own cursor; an empty text has none. -/
theorem witness_DrawstrDrawsEveryCharacterAtItsCursor : zeroFb.ledMode ≠ .halted ∧
    textInkAt fixtureRom [0x48#8, 0x0A#8, 0x48#8] 0 0 0 8 ∧
    ∀ u v : Nat, u < 128 → v < 64 → textInkAt fixtureRom [] 0 0 u v → v / 8 * 128 + u ≠ 0 := by
  refine ⟨by decide, ⟨2, 0x48#8, rfl, by decide, ⟨_, rfl, 0, 0, by decide, by decide, by decide, by decide, by decide⟩⟩, ?_⟩
  rintro u v _ _ ⟨k, c, h, _⟩
  cases h

theorem witness_TextDrawsPieceByPiece : newline ∉ [0x48#8] ∧ newline ∉ [0x69#8] := by decide

theorem witness_RenderReplacesAndSendsTheFramebuffer : State.reset.ledMode ≠ .halted ∧ 127 < 128 ∧ 63 < 64 ∧ 1023 < 1024 := by decide

theorem witness_RenderIsDrawstrOnABlankBuffer : zeroFb.rom = ({ State.reset with rom := fixtureRom } : State).rom ∧
    (∀ a, a < 1024 → zeroFb.fbRead a = 0#8) ∧
    (∃ t, exec (.render 5#8 0#8 [0x48#8]) { State.reset with rom := fixtureRom } = .next t) ∧
    ∃ t', exec (.drawstr 5#8 0#8 [0x48#8]) zeroFb = .next t' :=
  ⟨rfl, zeroFb_read, render_completes _ reset_not_halted, drawstr_completes _ reset_not_halted⟩

/-- One framebuffer never written, one with old content. -/
theorem witness_RenderForgetsTheOldFramebuffer : State.reset.rom = ({ State.reset with fb := [(5, 0xFF#8)] } : State).rom ∧
    (∃ t, exec (.render 5#8 0#8 [0x48#8]) State.reset = .next t) ∧
    ∃ t, exec (.render 5#8 0#8 [0x48#8]) { State.reset with fb := [(5, 0xFF#8)] } = .next t :=
  ⟨rfl, render_completes _ reset_not_halted, render_completes _ reset_not_halted⟩

/-- The last discarded and the first accepted tick, for each input. -/
theorem witness_EdgeWindowTest : State.reset.ledMode ≠ .halted ∧
    ((49999#32 : Tick).toNat + 2 ^ 32 - State.reset.gate0.lastAccepted.toNat) % 2 ^ 32 < 50000 ∧
    50000 ≤ ((50000#32 : Tick).toNat + 2 ^ 32 - State.reset.gate0.lastAccepted.toNat) % 2 ^ 32 ∧
    ((49999#32 : Tick).toNat + 2 ^ 32 - State.reset.gate1.lastAccepted.toNat) % 2 ^ 32 < 50000 ∧
    50000 ≤ ((50000#32 : Tick).toNat + 2 ^ 32 - State.reset.gate1.lastAccepted.toNat) % 2 ^ 32 := by decide

theorem witness_TakeAnswersAndClears : State.reset.ledMode ≠ .halted := by decide

theorem witness_SetWinsOverClear : State.reset.ledMode ≠ .halted ∧ inputOf 0#8 = some .in0 ∧ inputOf 1#8 = some .in1 := by decide

theorem witness_EdgesOfDifferentInputsCommute : State.reset.ledMode ≠ .halted := by decide

/-- A command, a take of the other input, and an edge of the other input. -/
theorem witness_EdgeCommutesWithOtherOperations : inputOf 0#8 = some .in0 ∧
    (∀ j, Instr.take 1#8 = .take j → inputOf j ≠ some .in0) ∧ (∀ j now', Instr.take 1#8 = .edge j now' → inputOf j ≠ some .in0) ∧
    (∀ t, exec (.take 1#8) State.reset = .next t → t.ledMode ≠ .halted) ∧
    (∀ j now', Instr.edge 1#8 0#32 = .edge j now' → inputOf j ≠ some .in0) := by
  refine ⟨by decide, ?_, ?_, ?_, ?_⟩
  · rintro j h; cases h; decide
  · rintro j now' h; cases h
  · intro t h; cases h; decide
  · rintro j now' h; cases h; decide

/-- An accepted edge, a discarded one and a take between, then the end. -/
theorem witness_ConsecutiveAcceptedEdgesAreAWindowApart : inputOf 0#8 = some .in0 ∧
    acceptsEdge .in0 (.edge 0#8 100000#32) State.reset = true ∧
    ∃ t t', exec (.edge 0#8 100000#32) State.reset = .next t ∧ execAll [.edge 0#8 149999#32, .take 0#8] t = .next t' ∧
      acceptedEdges .in0 [.edge 0#8 149999#32, .take 0#8] t = 0 := by
  refine ⟨by decide, by decide +kernel, _, _, rfl, rfl, by decide +kernel⟩

theorem witness_EventsAreNeverDuplicated :
    ∃ t, execAll [.edge 0#8 100000#32, .take 0#8, .take 0#8] State.reset = .next t ∧ t.takeOut = [true, false] :=
  ⟨_, rfl, by decide +kernel⟩

/-- One state for each group of operations. -/
theorem witness_EachOperationWritesOnlyWhatItOwns : (∃ t, exec (.init 7#8) State.reset = .next t) ∧ (∃ t, exec .flush ready = .next t) ∧
    (∃ t, exec (.render 0#8 0#8 [0x48#8]) State.reset = .next t) ∧ (∃ t, exec (.take 1#8) State.reset = .next t) ∧
    ∃ t, exec (.edge 1#8 50000#32) State.reset = .next t := ⟨⟨_, rfl⟩, ⟨_, rfl⟩, render_completes _ reset_not_halted, ⟨_, rfl⟩, _, rfl⟩

theorem witness_OutputsOnlyGrow : ∃ t, exec (.digit 5#8) ready = .next t := ⟨_, rfl⟩

/-- A state of the invariant that executes a record. -/
theorem witness_EveryStepKeepsTheInvariant : (presented ready [0x04#8]).Inv ∧ ∃ t, step (presented ready [0x04#8]) = .next t := by
  refine ⟨⟨rfl, fixed_digitFive, rfl, rfl, ⟨[], rfl⟩, fun h => absurd rfl h, fun _ h => nomatch h⟩, ?_⟩
  rw [step_of_recordNext (recordNext_presented (by decide) rfl (by simp))]
  exact ⟨_, rfl⟩

end Sys2Proof.Tests
end

/-! PROOFS. The machine's invariant and what it rests on, the output traces, and where an edge of a gate or a change of `chan_free`
falls between the other operations (R11, R12, R33, R60). -/

namespace Sys2Proof.Machine

/-! ### What the shared operations leave -/

/-- A buffer cleared by `RENDER` shows no pixel (R134). -/
theorem clearedMemory_pixel (epoch : Nat) {u v : Nat} (hu : u < 128) (hv : v < 64) :
    Memory.pixel epoch clearedMemory u v = false := by
  unfold Memory.pixel
  rw [clearedMemory_read epoch (fbAddress_lt hu hv)]
  simp

/-- The pixel of a state is the pixel of its framebuffer (R52, R53). -/
theorem State.pixelOn_eq (s : State) (u v : Nat) : s.pixelOn u v = Memory.pixel s.epoch s.fb u v := rfl

/-- No number of submissions fills the queue beyond its depth (R110). -/
theorem Emitter.foldl_submit_queue_le {depth : Nat} (hd : 1 ≤ depth) (cs : List Color) : ∀ {e : Emitter},
    e.queue.length ≤ depth → (cs.foldl (Emitter.submit depth) e).queue.length ≤ depth := by
  induction cs with
  | nil => exact fun h => h
  | cons c rest ih => exact fun h => ih (submit_queue_le hd h c)

/-- `FLUSH` takes nothing back from the wire, whatever the generator held (R12, R107). -/
theorem ledOut_prefix_flushFrame (s : State) : s.ledOut <+: (flushFrame s).ledOut := by
  unfold flushFrame
  rw [Emitter.sendFrame_eq, setEmitter_ledOut]
  simp only [State.emitter, List.append_assoc]
  exact List.prefix_append _ _

/-- In Halted the first `rst` the environment has is the step's work (R181, log 12). -/
theorem step_of_halted {s : State} {e : Scheduled} {rest : List Scheduled} (hm : s.ledMode = .halted)
    (hf : fromReset s.env = e :: rest) : step s = .next (applyInput e.input { s with env := rest }) := by
  have hw : nextWork s = .input e.input rest := by simp [nextWork, hm, haltedWork, hf]
  unfold step
  rw [hw]

/-- A change of `chan_free` that stands before an `rst` changes places with it, due at once (log 12). -/
theorem fromReset_chanFree_rst {e r : Scheduled} {free : Bool} (he : e.input = .chanFree free) (hr : r.input = .rst)
    (later : List Scheduled) : fromReset (e :: r :: later) = r :: { due := 0, input := .chanFree free } :: later := by
  simp only [fromReset, he, hr]

/-! ### The invariant -/

/-- With nothing written, queued or sent, the source's digit 5 is all the invariant asks for. -/
theorem inv_of_blank {s : State} (hfb : s.fb = []) (hrom : s.rom.digits[5] = Config.digitFive) (hq : s.queue = [])
    (hs : s.shifter = []) (hl : s.ledOut = []) (hd : s.dispOut = []) : s.Inv where
  fbWf := hfb ▸ Memory.wf_nil
  digitFive := hrom
  queueEmpty := hq
  shifterEmpty := hs
  wireWhole := ⟨[], hl⟩
  wireQuiet _ := hl
  displayWhole := by simp [hd]

/-- A gate is no part of the invariant. -/
theorem setGate_keeps_inv {s : State} (h : s.Inv) (n : InputId) (g : Gate) : (s.setGate n g).Inv := by
  cases n <;> exact { h with }

/-- A whole frame on the wire in Ready keeps the invariant (R107). -/
theorem flushFrame_keeps_inv {s : State} (h : s.Inv) (hm : s.ledMode = .ready) : (flushFrame s).Inv := by
  rw [flushFrame_eq h.queueEmpty h.shifterEmpty]
  exact { h with wireWhole := h.wireWhole.append s.px, wireQuiet := fun hn => absurd hm hn }

/-- The transfer sends one frame of the whole buffer, so it keeps the invariant (R135). -/
theorem transfer_keeps_inv {s : State} (h : s.Inv) : (transfer s).Inv := by
  refine { h with displayWhole := fun f hf => ?_ }
  rcases List.mem_append.mp (transfer_dispOut s ▸ hf) with hold | hnew
  · exact h.displayWhole f hold
  · rw [List.mem_singleton.mp hnew, frameBytes_length]

/-- Every operation that answers a next state keeps the invariant. -/
theorem exec_keeps_inv {i : Instr} {s t : State} (h : s.Inv) (hx : exec i s = .next t) : t.Inv := by
  cases i with
  | init pin =>
    obtain ⟨hm, ⟨-, rfl⟩ | ⟨-, rfl⟩⟩ := execInit_next hx
    · exact { h with wireQuiet := fun hn => absurd rfl hn }
    · exact { h with wireQuiet := fun _ => h.wireQuiet (by simp [hm]) }
  | setpx idx r g b => obtain ⟨-, rfl⟩ := execSetpx_next hx; exact { h with }
  | clear => obtain ⟨-, rfl⟩ := execClear_next hx; exact { h with }
  | flush => obtain ⟨hm, rfl⟩ := execFlush_next hx; exact flushFrame_keeps_inv h hm
  | digit v =>
    obtain ⟨hm, ⟨-, rfl⟩ | ⟨-, rfl⟩⟩ := execDigit_next hx
    · have hpx : { s with px := digitFrame s.rom v.toNat }.Inv := { h with }
      exact flushFrame_keeps_inv hpx hm
    · exact h
  | drawch x y c =>
    obtain ⟨-, rfl⟩ := execDrawch_next hx
    exact { h with fbWf := wf_drawChar _ _ _ _ _ h.fbWf }
  | drawstr x y text =>
    obtain ⟨-, rfl⟩ := execDrawstr_next hx
    exact { h with fbWf := wf_drawText _ _ _ _ _ _ h.fbWf }
  | render x y text =>
    obtain ⟨-, rfl⟩ := execRender_next hx
    have hfb : { s with fb := drawText s.epoch s.rom (coordOf x) (coordOf x) (coordOf y) text clearedMemory }.Inv :=
      { h with fbWf := wf_drawText _ _ _ _ _ _ clearedMemory_wf }
    exact transfer_keeps_inv hfb
  | take k =>
    obtain ⟨-, n, -, rfl⟩ := execTake_next hx
    exact { setGate_keeps_inv h n (s.gate n).onTake with }
  | edge k now => obtain ⟨-, n, -, rfl⟩ := execEdge_next hx; exact setGate_keeps_inv h n _

/-- Every input of the environment keeps the invariant. -/
theorem applyInput_keeps_inv {s : State} (h : s.Inv) (e : EnvInput) : (applyInput e s).Inv := by
  cases e with
  | sample n level now => exact setGate_keeps_inv h n _
  | chanFree free => exact { h with }
  | rst =>
    have hrom : (assertReset s).rom.digits[5] = Config.digitFive := by rw [assertReset_rom, h.digitFive]
    exact inv_of_blank (assertReset_fb s) hrom (assertReset_queue s) (assertReset_shifter s) (assertReset_ledOut s)
      (assertReset_dispOut s)

/-- Settles O46, by the cases of a step: a wait, an input of the environment, or a record that executes. -/
theorem everyStepKeepsTheInvariant : Obligations.EveryStepKeepsTheInvariant := by
  intro s t h hstep
  cases step_next_cases hstep with
  | wait _ _ _ same => exact same ▸ h
  | input e rest _ _ eq =>
    have henv : { s with env := rest }.Inv := { h with }
    exact eq ▸ applyInput_keeps_inv henv e
  | record _ i rest u _ executed eq =>
    have hu : u.Inv := exec_keeps_inv h executed
    exact eq ▸ { hu with }

/-- Settles O47: reset leaves everything blank, and digit 5 of the fixed ROM is the source's. -/
theorem resetMeetsTheInvariant : Obligations.ResetMeetsTheInvariant :=
  inv_of_blank rfl (by simp [State.reset, Rom.fixed]) rfl rfl rfl rfl

/-! ### The outputs -/

/-- Settles O23: the wire is `Emitter.sendFrame_eq`, which does not mention the depth, and the bound is kept by every submission. -/
theorem queueDepthIsUnobservable : Obligations.QueueDepthIsUnobservable := by
  intro depth px out hd
  constructor
  · rw [Emitter.sendFrame_eq]
    simp only [List.flatMap_nil, List.append_nil, wireFrame, frameSymbols, ← List.append_assoc]
    rfl
  · exact fun n => Emitter.foldl_submit_queue_le hd _ (Nat.zero_le depth)

/-- Settles O34: the pixels are those of the text drawn on a blank buffer, and the frame is the buffer byte for byte. -/
theorem renderReplacesAndSendsTheFramebuffer : Obligations.RenderReplacesAndSendsTheFramebuffer := by
  intro x y text s hm
  refine ⟨_, _, execRender_of_live x y text hm, rfl, fun u v hu hv => ?_, frameBytes_length _ _, fun a ha => ?_⟩
  · rw [State.pixelOn_eq, transfer_fb, transfer_epoch, pixel_drawText _ _ _ _ _ _ _ _ _ hu hv, clearedMemory_pixel _ hu hv,
      inkFrom_eq]
    simp [coordOf]
  · rw [frameBytes_getElem? _ _ ha, State.fbRead, transfer_fb, transfer_epoch]

/-- Settles O45, operation by operation: only `FLUSH`, `DIGIT`, `RENDER` and `TAKE` write a trace, and each appends to it. -/
theorem outputsOnlyGrow : Obligations.OutputsOnlyGrow := by
  intro i s t hx
  have kept : s.ledOut <+: s.ledOut ∧ s.dispOut <+: s.dispOut ∧ s.takeOut <+: s.takeOut :=
    ⟨List.prefix_rfl, List.prefix_rfl, List.prefix_rfl⟩
  cases i with
  | init pin => obtain ⟨-, ⟨-, rfl⟩ | ⟨-, rfl⟩⟩ := execInit_next hx <;> exact kept
  | setpx idx r g b => obtain ⟨-, rfl⟩ := execSetpx_next hx; exact kept
  | clear => obtain ⟨-, rfl⟩ := execClear_next hx; exact kept
  | flush =>
    obtain ⟨-, rfl⟩ := execFlush_next hx
    exact ⟨ledOut_prefix_flushFrame s, List.prefix_rfl, List.prefix_rfl⟩
  | digit v =>
    obtain ⟨-, ⟨-, rfl⟩ | ⟨-, rfl⟩⟩ := execDigit_next hx
    · exact ⟨ledOut_prefix_flushFrame { s with px := digitFrame s.rom v.toNat }, List.prefix_rfl, List.prefix_rfl⟩
    · exact kept
  | drawch x y c => obtain ⟨-, rfl⟩ := execDrawch_next hx; exact kept
  | drawstr x y text => obtain ⟨-, rfl⟩ := execDrawstr_next hx; exact kept
  | render x y text =>
    obtain ⟨-, rfl⟩ := execRender_next hx
    rw [transfer_ledOut, transfer_dispOut, transfer_takeOut]
    exact ⟨List.prefix_rfl, List.prefix_append _ _, List.prefix_rfl⟩
  | take k =>
    obtain ⟨-, n, -, rfl⟩ := execTake_next hx
    unfold takeEvent
    rw [respond_takeOut]
    cases n <;> exact ⟨List.prefix_rfl, List.prefix_rfl, List.prefix_append _ _⟩
  | edge k now =>
    obtain ⟨-, n, -, rfl⟩ := execEdge_next hx
    cases n <;> exact kept

/-! ### An edge against another operation -/

/-- Change the next state an operation answers; a stop stays as it is. -/
def mapNext (f : State → State) : Result → Result
  | .next t => .next (f t)
  | .fault e => .fault e
  | .refused r => .refused r

/-- The operation is neither a `TAKE` nor an `EDGE` of input `n`. -/
def sparesGate (n : InputId) (i : Instr) : Prop :=
  (∀ j, i = .take j → inputOf j ≠ some n) ∧ ∀ j now, i = .edge j now → inputOf j ≠ some n

/-- Which mode lets an operation run does not depend on a gate (R113, R181). -/
theorem whenLive_setGate {n : InputId} {g : Gate} (s : State) {k k' : Result} (h : k' = mapNext (·.setGate n g) k) :
    whenLive (s.setGate n g) k' = mapNext (·.setGate n g) (whenLive s k) := by
  unfold whenLive
  rw [State.setGate_ledMode, h]
  cases s.ledMode <;> rfl

/-- Which mode lets an LED command run does not depend on a gate (R113). -/
theorem whenReady_setGate {n : InputId} {g : Gate} (s : State) {k k' : Result} (h : k' = mapNext (·.setGate n g) k) :
    whenReady (s.setGate n g) k' = mapNext (·.setGate n g) (whenReady s k) := by
  unfold whenReady
  rw [State.setGate_ledMode, h]
  cases s.ledMode <;> rfl

/-- The two gates are written independently (R160). -/
theorem setGate_comm (s : State) {n m : InputId} (h : m ≠ n) (g g' : Gate) :
    (s.setGate n g).setGate m g' = (s.setGate m g').setGate n g :=
  match n, m, h with
  | .in0, .in1, _ => rfl
  | .in1, .in0, _ => rfl

/-- An operation on the gate of an input other than `n` runs alike whatever gate `n` holds. -/
theorem withInput_setGate {j : Byte} {n : InputId} (hj : inputOf j ≠ some n) (g : Gate) (s : State) (f : InputId → State → State)
    (hf : ∀ m, m ≠ n → f m (s.setGate n g) = (f m s).setGate n g) :
    withInput j (fun m => .next (f m (s.setGate n g))) = mapNext (·.setGate n g) (withInput j fun m => .next (f m s)) := by
  unfold withInput
  cases hm : inputOf j with
  | none => rfl
  | some m => exact congrArg Host.Outcome.next (hf m fun hmn => hj (hmn ▸ hm))

/-- A take of one input does not depend on the other gate (R61, R162). -/
theorem takeEvent_setGate (s : State) {n m : InputId} (h : m ≠ n) (g : Gate) :
    takeEvent m (s.setGate n g) = (takeEvent m s).setGate n g := by
  unfold takeEvent
  rw [State.gate_setGate_ne s g h, setGate_comm s h]
  cases n <;> rfl

/-- An edge of one input does not depend on the other gate (R161, R188). -/
theorem edgeHandler_setGate (s : State) {n m : InputId} (h : m ≠ n) (g : Gate) (now : Tick) :
    edgeHandler m now (s.setGate n g) = (edgeHandler m now s).setGate n g := by
  unfold edgeHandler
  rw [State.gate_setGate_ne s g h, setGate_comm s h]

/-- `INIT` does not read a gate (R103, R104). -/
theorem execInit_setGate (pin : Byte) (n : InputId) (g : Gate) (s : State) :
    execInit pin (s.setGate n g) = mapNext (·.setGate n g) (execInit pin s) := by
  unfold execInit
  rw [State.setGate_ledMode, State.setGate_chanFree]
  cases s.ledMode with
  | uninit => cases s.chanFree <;> cases n <;> rfl
  | ready => rfl
  | halted => rfl

/-- An operation that is no `TAKE` and no `EDGE` of input `n` does not read gate `n` (R60, R160). -/
theorem exec_setGate {n : InputId} {i : Instr} (hi : sparesGate n i) (g : Gate) (s : State) :
    exec i (s.setGate n g) = mapNext (·.setGate n g) (exec i s) := by
  obtain ⟨htake, hedge⟩ := hi
  cases i with
  | init pin => exact execInit_setGate pin n g s
  | setpx | clear | flush => exact whenReady_setGate s (by cases n <;> rfl)
  | digit v => exact whenReady_setGate s (by cases digitOf v <;> cases n <;> rfl)
  | drawch | drawstr | render => exact whenLive_setGate s (by cases n <;> rfl)
  | take j =>
    exact whenLive_setGate s (withInput_setGate (htake j rfl) g s takeEvent fun _ hm => takeEvent_setGate s hm g)
  | edge j now =>
    exact whenLive_setGate s
      (withInput_setGate (hedge j now rfl) g s (edgeHandler · now) fun _ hm => edgeHandler_setGate s hm g now)

/-- Nor does it write gate `n`: it runs alike on the state with that gate put back. -/
theorem gate_of_exec_next {n : InputId} {i : Instr} (hi : sparesGate n i) {s t : State} (hx : exec i s = .next t) :
    t.gate n = s.gate n := by
  have h := exec_setGate hi (s.gate n) s
  rw [State.setGate_gate, hx] at h
  have ht : t = t.setGate n (s.gate n) := Host.Outcome.next.inj h
  rw [ht, State.gate_setGate_same]

/-- Settles O41: the operation neither reads nor writes the edge's gate, and out of Halted the edge itself always completes. -/
theorem edgeCommutesWithOtherOperations : Obligations.EdgeCommutesWithOtherOperations := by
  intro k n now i s hk htake hedge hlive
  have hi : sparesGate n i := ⟨htake, hedge⟩
  by_cases hm : s.ledMode = .halted
  · simp only [execAll, exec_of_halted _ hm]
  · simp only [execAll, execEdge_of_live now hm hk, edgeHandler, exec_setGate hi]
    cases hx : exec i s with
    | next t =>
      simp only [mapNext, execEdge_of_live now (hlive t hx) hk, edgeHandler, gate_of_exec_next hi hx]
    | fault f => rfl
    | refused r => rfl

/-! ### Digit 5 and `chan_free` -/

/-- Bit `4 − x` of row `y` of the source's glyph of 5 (R55). -/
def digitFiveBit (x y : Nat) : Bool :=
  if h : y < 5 then Config.digitFive[y].getLsbD (4 - x) && decide (x < 5) else false

/-- A ROM that holds the source's glyph of 5 shows its bits (R8, R55). -/
theorem digitBit_five {rom : Rom} (h : rom.digits[5] = Config.digitFive) (x y : Nat) :
    digitBit rom 5 x y = digitFiveBit x y := by
  simp [digitBit, digitFiveBit, h]

/-- The pixels that the set bits of the source's glyph of 5 map to: R111's example. -/
theorem digitFiveBit_pixels : ∀ j < Config.numPixels,
    digitCells.any (fun p => digitFiveBit p.1 p.2 && decide (physOf 5 p.1 p.2 = j)) =
      decide (j ∈ [0, 1, 2, 3, 4, 9, 10, 11, 12, 13, 14, 15, 20, 21, 22, 23, 24]) := by decide

/-- Settles O28: the frame of `DIGIT 5` is red where a set bit of the source's glyph maps to. -/
theorem digitFiveLightsSeventeenPixels : Obligations.DigitFiveLightsSeventeenPixels := by
  intro s h hm
  refine ⟨_, execDigit_of_idle hm h.queueEmpty h.shifterEmpty (by decide), fun j hj => ?_⟩
  have hfive : (digitFrame s.rom 5)[j] =
      if digitCells.any (fun p => digitBit s.rom 5 p.1 p.2 && decide (physOf 5 p.1 p.2 = j)) then Color.fullRed else Color.black :=
    digitFrame_getElem s.rom 5 j hj
  simp only [digitBit_five h.digitFive, digitFiveBit_pixels j hj, decide_eq_true_eq] at hfive
  exact hfive

/-- Settles O48: out of Halted the input is the step's work; in Halted the `rst` behind it is, and the change stands next. -/
theorem chanFreeInputSetsTheLevel : Obligations.ChanFreeInputSetsTheLevel := by
  intro s free e rest henv he
  refine ⟨fun hm hdue => ?_, fun r later hm hrest hr => ?_⟩
  · rw [step_of_input henv (.inl ⟨hm, hdue⟩), he]
    rfl
  · have hf : fromReset s.env = r :: { due := 0, input := .chanFree free } :: later := by
      rw [henv, hrest, fromReset_chanFree_rst he hr]
    refine ⟨_, step_of_halted hm hf, ?_⟩
    rw [hr]
    exact ⟨assertReset_ledMode _, assertReset_env _⟩

end Sys2Proof.Machine

/-! PROOFS. What each operation owns and what it leaves to the environment, which steps change `led_mode`, and what a step does with a
record, an asserted `rst` and a pin sample (R20 to R28, R64, R82, R164, R210). -/

namespace Sys2Proof.Machine

/-! ### What an operation owns -/

/-- `FLUSH` writes the generator and the wire alone (R107). -/
theorem flushFrame_frame (s : State) :
    flushFrame s = { s with
      queue := (flushFrame s).queue, shifter := (flushFrame s).shifter, ledOut := (flushFrame s).ledOut } := rfl

/-- The transfer writes the display trace alone (R135). -/
theorem transfer_frame (s : State) : transfer s = { s with dispOut := (transfer s).dispOut } := rfl

/-- A take writes its pending flag and the answer alone (R162). -/
theorem takeEvent_frame (n : InputId) (s : State) :
    takeEvent n s = { s.setGate n { s.gate n with pending := false } with takeOut := (takeEvent n s).takeOut } := by
  rw [← Gate.onTake_eq]
  rfl

/-- An edge leaves `prev` to the pin's samples (R161, R164). -/
theorem edgeHandler_frame (n : InputId) (now : Tick) (s : State) :
    edgeHandler n now s = s.setGate n { (s.gate n).onEdge now with prev := (s.gate n).prev } := by
  rw [← Gate.onEdge_prev (s.gate n) now]
  rfl

/-- Settles O44, operation by operation, by what the operation answers and the frame of the shared update it ends in. -/
theorem eachOperationWritesOnlyWhatItOwns : Obligations.EachOperationWritesOnlyWhatItOwns := by
  intro i s t hx
  cases i with
  | init pin => obtain ⟨-, ⟨-, rfl⟩ | ⟨-, rfl⟩⟩ := execInit_next hx <;> rfl
  | setpx idx r g b => obtain ⟨-, rfl⟩ := execSetpx_next hx; rfl
  | clear => obtain ⟨-, rfl⟩ := execClear_next hx; rfl
  | flush => obtain ⟨-, rfl⟩ := execFlush_next hx; exact flushFrame_frame s
  | digit v =>
    obtain ⟨-, ⟨-, rfl⟩ | ⟨-, rfl⟩⟩ := execDigit_next hx
    · exact flushFrame_frame { s with px := digitFrame s.rom v.toNat }
    · rfl
  | drawch x y c => obtain ⟨-, rfl⟩ := execDrawch_next hx; rfl
  | drawstr x y text => obtain ⟨-, rfl⟩ := execDrawstr_next hx; rfl
  | render x y text =>
    obtain ⟨-, rfl⟩ := execRender_next hx
    dsimp only
    rw [transfer_fb]
    exact transfer_frame _
  | take k => obtain ⟨-, n, hn, rfl⟩ := execTake_next hx; exact ⟨n, hn, takeEvent_frame n s⟩
  | edge k now => obtain ⟨-, n, hn, rfl⟩ := execEdge_next hx; exact ⟨n, _, hn, edgeHandler_frame n now s⟩

/-- Settles O9: no operation owns any of these pieces of state. -/
theorem operationsLeaveTheStreamAndRomsAlone : Obligations.OperationsLeaveTheStreamAndRomsAlone := by
  intro i s t hx
  have howned := eachOperationWritesOnlyWhatItOwns i s t hx
  cases i with
  | init | setpx | clear | flush | digit | drawch | drawstr | render =>
    dsimp only at howned
    rw [howned]
    exact ⟨rfl, rfl, rfl, rfl, rfl, rfl⟩
  | take k => obtain ⟨n, -, ht⟩ := howned; rw [ht]; simp
  | edge k now => obtain ⟨n, g, -, ht⟩ := howned; rw [ht]; simp

/-- Behind its record, an operation has left the position one past where it started (R21, R82). -/
theorem pastRecord_of_exec {i : Instr} {s u : State} (hx : exec i s = .next u) (rest : List Byte) :
    u.pastRecord rest = { u with stream := rest, spos := s.spos + 1 } := by
  obtain ⟨hspos, -⟩ := operationsLeaveTheStreamAndRomsAlone i s u hx
  rw [State.pastRecord, hspos]

/-! ### What a step leaves of the ROMs and of the mode -/

/-- No input of the environment writes a glyph table, `rst` included (R28). -/
theorem applyInput_rom (e : EnvInput) (s : State) : (applyInput e s).rom = s.rom := by
  cases e with
  | sample n level now => exact State.setGate_rom s n _
  | chanFree free => rfl
  | rst => exact assertReset_rom s

/-- Settles O10, by the cases of a step: only a record runs an operation, and none of them writes a ROM. -/
theorem noStepChangesTheGlyphRoms : Obligations.NoStepChangesTheGlyphRoms := by
  intro s t hstep
  cases step_next_cases hstep with
  | wait _ _ _ same => rw [same]
  | input e rest _ _ eq => rw [eq, applyInput_rom]
  | record _ i rest u _ executed eq =>
    obtain ⟨-, -, -, -, hrom, -⟩ := operationsLeaveTheStreamAndRomsAlone i s u executed
    exact eq ▸ hrom

/-- Of the operations only `INIT` out of Uninit changes the mode: the others do not own it (R23). -/
theorem init_of_exec_changes_ledMode {i : Instr} {s t : State} (hx : exec i s = .next t) (hne : t.ledMode ≠ s.ledMode) :
    s.ledMode = .uninit ∧ ∃ pin, i = .init pin := by
  have howned := eachOperationWritesOnlyWhatItOwns i s t hx
  cases i with
  | init pin => obtain ⟨hm, -⟩ := execInit_next hx; exact ⟨hm, pin, rfl⟩
  | setpx | clear | flush | digit | drawch | drawstr | render =>
    dsimp only at howned
    exact absurd (by rw [howned]) hne
  | take k => obtain ⟨n, -, ht⟩ := howned; exact absurd (by rw [ht]; simp) hne
  | edge k now => obtain ⟨n, g, -, ht⟩ := howned; exact absurd (by rw [ht]; simp) hne

/-- Of the environment's inputs only `rst` changes the mode (R23, R210). -/
theorem rst_of_applyInput_changes_ledMode {e : EnvInput} {s : State} (hne : (applyInput e s).ledMode ≠ s.ledMode) : e = .rst := by
  cases e with
  | sample n level now => exact absurd (State.setGate_ledMode s n _) hne
  | chanFree free => exact absurd rfl hne
  | rst => rfl

/-- A step that changes the mode executes an `INIT` out of Uninit, or it is an asserted `rst` (R23). -/
theorem step_changes_ledMode {s t : State} (hstep : step s = .next t) (hne : t.ledMode ≠ s.ledMode) :
    (s.ledMode = .uninit ∧ s.recordNext ∧ ∃ pin rest u, decode s.stream = .ok (.init pin, rest) ∧
      exec (.init pin) s = .next u ∧ t = { u with stream := rest, spos := s.spos + 1 }) ∨
    (t.ledMode = .uninit ∧ ∃ e ∈ s.env, e.input = .rst) := by
  cases step_next_cases hstep with
  | wait _ _ _ same => exact absurd (by rw [same]) hne
  | input e rest from_env _ eq =>
    subst eq
    obtain rfl : e = .rst := rst_of_applyInput_changes_ledMode hne
    exact .inr ⟨assertReset_ledMode _, from_env⟩
  | record next i rest u decoded executed eq =>
    subst eq
    obtain ⟨hm, pin, rfl⟩ := init_of_exec_changes_ledMode executed hne
    exact .inl ⟨hm, next, pin, rest, u, decoded, executed, pastRecord_of_exec executed rest⟩

/-- Settles O16: an `rst` leads to Uninit, so it changes no Uninit; an `INIT` answers a next state in Uninit only. -/
theorem onlyInitAndResetChangeTheMode : Obligations.OnlyInitAndResetChangeTheMode := by
  refine ⟨fun i s t hx hne => init_of_exec_changes_ledMode hx hne, fun s t hstep hm hne => ?_, fun s t hstep hm hne => ?_⟩
  · rcases step_changes_ledMode hstep hne with ⟨-, hinit⟩ | ⟨ht, -⟩
    · exact hinit
    · exact absurd (ht.trans hm.symm) hne
  · rcases step_changes_ledMode hstep hne with ⟨hs, -⟩ | hrst
    · exact absurd hs hm
    · exact hrst

/-! ### A record, an asserted `rst`, a pin sample -/

/-- Settles O7: the step is `exec` of the decoded record, retired. -/
theorem stepExecutesTheDecodedRecord : Obligations.StepExecutesTheDecodedRecord := by
  intro s i rest hr hd
  have hstep : step s = retire rest (exec i s) := by rw [step_of_recordNext hr, hd]
  refine ⟨fun t hx => ?_, fun f hx => ?_, fun r hx => ?_⟩
  · rw [hstep, hx, retire, pastRecord_of_exec hx]
  · rw [hstep, hx, retire]
  · rw [hstep, hx, retire]

/-- Either gate at reset (R22, R25, R26). -/
theorem reset_gate (n : InputId) : State.reset.gate n = Gate.reset := by cases n <;> rfl

/-- The registers of a gate at reset (R22, R25, R26). -/
theorem gate_reset_registers {g : Gate} (h : g = Gate.reset) : g.pending = false ∧ g.lastAccepted = 0#32 ∧ g.prev = true := by
  subst h
  exact ⟨rfl, rfl, rfl⟩

/-- Settles O13: the fields of `State.reset`. -/
theorem resetValues : Obligations.ResetValues :=
  ⟨rfl, rfl, fun n => gate_reset_registers (reset_gate n), rfl, rfl, rfl, rfl, rfl, rfl⟩

/-- An `rst` that is the environment's next input is the step: at once in Halted, otherwise when it is due (R210, logs 3 and 13). -/
theorem step_of_rst {s : State} {e : Scheduled} {rest : List Scheduled} (henv : s.env = e :: rest) (he : e.input = .rst)
    (hdue : s.ledMode = .halted ∨ e.due ≤ s.spos ∨ s.stream = []) : step s = .next (assertReset { s with env := rest }) := by
  have hland : (s.ledMode ≠ .halted ∧ (e.due ≤ s.spos ∨ s.stream = [])) ∨ (s.ledMode = .halted ∧ e.input = .rst) := by
    by_cases hm : s.ledMode = .halted
    · exact .inr ⟨hm, he⟩
    · exact .inl ⟨hm, hdue.resolve_left hm⟩
  rw [step_of_input henv hland, he]
  rfl

/-- Settles O14: the step is `assertReset`, whose fields the laws of the state give; in Halted nothing need be due. -/
theorem assertedResetGivesResetValues : Obligations.AssertedResetGivesResetValues := by
  intro s e rest henv he hdue
  refine ⟨_, step_of_rst henv he hdue, assertReset_ledMode _, ?_, fun n => gate_reset_registers (assertReset_gate _ n),
    assertReset_queue _, assertReset_shifter _, assertReset_ledOut _, assertReset_dispOut _, assertReset_takeOut _,
    assertReset_spos _, fun a => ?_, assertReset_rom _, assertReset_env _, assertReset_stream _⟩
  · rw [State.halted, assertReset_ledMode]
    rfl
  · rw [assertReset_fb]
    rfl

/-- The later of two writes to one gate stands. -/
theorem setGate_setGate (s : State) (n : InputId) (g g' : Gate) : (s.setGate n g).setGate n g' = s.setGate n g' := by
  cases n <;> rfl

/-- The state with the sampled level in `prev[n]`: all that a sample without a rise changes (R26, R164). -/
def withPrev (s : State) (n : InputId) (level : Bool) : State := s.setGate n { s.gate n with prev := level }

/-- A rising sample moves `prev` and then runs the handler (R164). -/
theorem samplePin_of_rise {s : State} {n : InputId} (hp : (s.gate n).prev = false) (now : Tick) :
    samplePin n true now s = edgeHandler n now (withPrev s n true) := by
  have hsample : (s.gate n).onSample true now = { s.gate n with prev := true }.onEdge now := by simp [Gate.onSample, rise, hp]
  rw [samplePin, hsample, edgeHandler, withPrev, State.gate_setGate_same, setGate_setGate]

/-- Any other sample moves `prev` alone (R164). -/
theorem samplePin_of_not_rise {s : State} {n : InputId} {level : Bool} (h : ¬ ((s.gate n).prev = false ∧ level = true))
    (now : Tick) : samplePin n level now s = withPrev s n level := by
  have hrise : rise (s.gate n).prev level = false := by simpa [rise] using h
  simp only [samplePin, Gate.onSample, hrise, withPrev, Bool.false_eq_true, if_false]

/-- Settles O15: the due sample is the step's work, and a rise is the handler that `EDGE` of that input runs (log 16). -/
theorem risingPinLevelRaisesTheEdge : Obligations.RisingPinLevelRaisesTheEdge := by
  intro s n k level now e rest hm hk henv he hdue sampled
  have hgate : ({ s with env := rest } : State).gate n = s.gate n := by cases n <;> rfl
  have hsampled : withPrev { s with env := rest } n level = sampled := by rw [withPrev, hgate]
  have hstep : step s = .next (samplePin n level now { s with env := rest }) := by
    rw [step_of_input henv (.inl ⟨hm, hdue⟩), he]
    rfl
  rw [hstep]
  by_cases hr : (s.gate n).prev = false ∧ level = true
  · obtain ⟨hp, rfl⟩ := hr
    have hlive : sampled.ledMode ≠ .halted := (State.setGate_ledMode _ n _).trans_ne hm
    rw [if_pos ⟨hp, rfl⟩, execEdge_of_live now hlive hk, samplePin_of_rise (hgate ▸ hp), hsampled]
  · rw [if_neg hr, samplePin_of_not_rise (hgate ▸ hr), hsampled]

end Sys2Proof.Machine

/-! PROOFS. What the operations leave on the wire, in the LED Frame, in the framebuffer and in the gates, each read off its law
(R53, R54, R60, R107, R111, R132, R133, R163). -/

namespace Sys2Proof.Machine

/-! ### The wire and the LED Frame -/

/-- The three bytes of a pixel on the wire: green, red, blue, each most significant bit first (R50, R108). -/
theorem pixelSymbols_getElem? (c : Color) {k : Nat} (hk : k < 8) :
    (pixelSymbols c)[k]? = some (bitSymbol (c.g.getLsbD (7 - k))) ∧
    (pixelSymbols c)[8 + k]? = some (bitSymbol (c.r.getLsbD (7 - k))) ∧
    (pixelSymbols c)[16 + k]? = some (bitSymbol (c.b.getLsbD (7 - k))) := by
  unfold pixelSymbols
  refine ⟨?_, ?_, ?_⟩
  · rw [List.append_assoc, List.getElem?_append_left (by rwa [sendByte_length]), sendByte_getElem? _ hk]
  · rw [List.append_assoc, List.getElem?_append_right (by rw [sendByte_length]; omega), sendByte_length, Nat.add_sub_cancel_left,
      List.getElem?_append_left (by rwa [sendByte_length]), sendByte_getElem? _ hk]
  · have hlen : (sendByte c.g ++ sendByte c.r).length = 16 := by rw [List.length_append, sendByte_length, sendByte_length]
    rw [List.getElem?_append_right (by omega), hlen, Nat.add_sub_cancel_left, sendByte_getElem? _ hk]

/-- Settles O21: the bits are `frameSymbols` of the frame, read pixel by pixel and then byte by byte. -/
theorem flushSendsGreenRedBlueMsbFirst : Obligations.FlushSendsGreenRedBlueMsbFirst := by
  intro s hm hq hs
  refine ⟨_, frameSymbols s.px, execFlush_of_idle hm hq hs, ?_, frameSymbols_length s.px, fun i hi k hk => ?_⟩
  · rw [wireFrame, List.append_assoc]
  · obtain ⟨hg, hr, hb⟩ := pixelSymbols_getElem? s.px[i] hk
    refine ⟨?_, ?_, ?_⟩
    · rw [frameSymbols_getElem? _ hi (by omega), hg]
    · rw [Nat.add_assoc, frameSymbols_getElem? _ hi (by omega), hr]
    · rw [Nat.add_assoc, frameSymbols_getElem? _ hi (by omega), hb]

/-- `phys` names no pixel twice (R101). -/
theorem physOf_inj {w x y x' y' : Nat} (hx : x < w) (hx' : x' < w) (h : physOf w x y = physOf w x' y') : x = x' ∧ y = y' := by
  obtain rfl : y = y' := by rw [← physOf_div (y := y) hx, h, physOf_div hx']
  have hrow : (y + 1) * w = y * w + w := Nat.succ_mul y w
  refine ⟨?_, rfl⟩
  unfold physOf at h
  split at h <;> omega

/-- Of the cells of a digit only `(x, y)` itself maps to the physical pixel of `(x, y)`. -/
theorem any_digitCells_physOf (lit : Nat × Nat → Bool) {x y : Nat} (hx : x < 5) (hy : y < 5) :
    digitCells.any (fun p => lit p && decide (physOf 5 p.1 p.2 = physOf 5 x y)) = lit (x, y) := by
  rw [Bool.eq_iff_iff, List.any_eq_true]
  constructor
  · rintro ⟨⟨a, b⟩, hp, hlit⟩
    obtain ⟨ha, -⟩ := mem_digitCells.mp hp
    obtain ⟨hl, hphys⟩ := Bool.and_eq_true_iff.mp hlit
    obtain ⟨rfl, rfl⟩ := physOf_inj ha hx (of_decide_eq_true hphys)
    exact hl
  · intro hl
    exact ⟨(x, y), mem_digitCells.mpr ⟨hx, hy⟩, by simp [hl]⟩

/-- The pixel of a digit's frame at logical `(x, y)`: red where the glyph's bit is 1, black where it is 0 (R55, R111). -/
theorem digitFrame_physOf (rom : Rom) (v : Nat) {x y : Nat} (hx : x < 5) (hy : y < 5) :
    (digitFrame rom v)[physOf 5 x y]? = some (if digitBit rom v x y then Color.fullRed else Color.black) := by
  have hlt : physOf 5 x y < Config.numPixels := physOf_lt hx hy
  rw [Vector.getElem?_eq_getElem hlt, digitFrame_getElem, any_digitCells_physOf (fun p => digitBit rom v p.1 p.2) hx hy]

/-- Inside the table a digit's bit is bit `4 − x` of row `y` (R55). -/
theorem digitBit_of_lt (rom : Rom) (d : Fin 10) (x y : Fin 5) : digitBit rom d x y = (rom.digits[d])[y].getLsbD (4 - x) := by
  simp [digitBit]

/-- Settles O25: the frame is the digit's, and each logical coordinate has a physical pixel of its own. -/
theorem digitLightsItsGlyphInRed : Obligations.DigitLightsItsGlyphInRed := by
  intro v s hm hq hs
  refine ⟨fun d hd => ⟨_, execDigit_of_idle hm hq hs (by omega), rfl, fun x y => ?_⟩, execDigit_of_gt hm⟩
  rw [hd, digitFrame_physOf _ _ x.isLt y.isLt, digitBit_of_lt]
  rfl

/-! ### The framebuffer -/

/-- Settles O31: pixels and bytes after one character. -/
theorem drawchOrsTheGlyph : Obligations.DrawchOrsTheGlyph := by
  intro x y c s hm
  exact ⟨_, execDrawch_of_live x y c hm, rfl, fun _ _ hu hv => pixel_drawChar _ _ _ _ _ _ hu hv,
    fun a ha => read_drawChar _ _ _ _ _ _ a ha⟩

/-- Settles O32: pixels and bytes after a text, whose cursor starts at its own column. -/
theorem drawstrDrawsEveryCharacterAtItsCursor : Obligations.DrawstrDrawsEveryCharacterAtItsCursor := by
  intro x y text s hm
  refine ⟨_, execDrawstr_of_live x y text hm, rfl, fun u v hu hv => ?_, fun a ha => ?_⟩
  · rw [State.pixelOn_eq, pixel_drawText _ _ _ _ _ _ _ _ _ hu hv, inkFrom_eq]
    rfl
  · exact read_drawText _ _ _ _ _ _ _ a fun u v hu hv hink => ha u v hu hv ((inkFrom_eq _ _ _ _ _ _).mp hink)

/-! ### The gates -/

/-- A take leaves the mode (R162). -/
@[simp] theorem takeEvent_ledMode (n : InputId) (s : State) : (takeEvent n s).ledMode = s.ledMode := State.setGate_ledMode s n _

/-- A take leaves its gate with `pending` clear (R162). -/
@[simp] theorem takeEvent_gate (n : InputId) (s : State) : (takeEvent n s).gate n = (s.gate n).onTake := by
  rw [takeEvent, respond_gate, State.gate_setGate_same]

/-- A take answers the flag before it (R61, R162). -/
@[simp] theorem takeEvent_takeOut (n : InputId) (s : State) : (takeEvent n s).takeOut = s.takeOut ++ [(s.gate n).pending] := by
  rw [takeEvent, respond_takeOut, State.setGate_takeOut]

/-- An edge leaves the mode (R161). -/
@[simp] theorem edgeHandler_ledMode (n : InputId) (now : Tick) (s : State) : (edgeHandler n now s).ledMode = s.ledMode :=
  State.setGate_ledMode s n _

/-- An edge sets the flag if its gate accepts it and keeps it otherwise (R161). -/
@[simp] theorem edgeHandler_pending (n : InputId) (now : Tick) (s : State) :
    ((edgeHandler n now s).gate n).pending = (edgeAccepted now (s.gate n).lastAccepted || (s.gate n).pending) := by
  rw [edgeHandler, State.gate_setGate_same, Gate.onEdge_pending]

/-- An edge answers nothing (R161). -/
@[simp] theorem edgeHandler_takeOut (n : InputId) (now : Tick) (s : State) : (edgeHandler n now s).takeOut = s.takeOut :=
  State.setGate_takeOut s n _

/-- `EDGE` of input `n` is accepted exactly if the window test lets it pass (R161). -/
theorem acceptsEdge_of_input {k : Byte} {n : InputId} (hk : inputOf k = some n) (now : Tick) (s : State) :
    acceptsEdge n (.edge k now) s = edgeAccepted now (s.gate n).lastAccepted := by
  simp [acceptsEdge, hk]

/-- Settles O39: a take moves neither the mode nor `last_accepted`, so the edge after it is accepted as it would have been before. -/
theorem setWinsOverClear : Obligations.SetWinsOverClear := by
  intro k n now s hm hk
  have htake : execAll [.take k, .edge k now] s = .next (edgeHandler n now (takeEvent n s)) := by
    simp only [execAll, execTake_of_live hm hk, execEdge_of_live now ((takeEvent_ledMode n s).trans_ne hm) hk]
  have hedge : execAll [.edge k now, .take k] s = .next (takeEvent n (edgeHandler n now s)) := by
    simp only [execAll, execEdge_of_live now hm hk, execTake_of_live ((edgeHandler_ledMode n now s).trans_ne hm) hk]
  refine ⟨_, _, htake, hedge, ?_, ?_, ?_, ?_⟩
  · rw [edgeHandler_pending, takeEvent_gate, acceptsEdge_of_input hk, Gate.onTake_lastAccepted, Gate.onTake_pending,
      Bool.not_true, Bool.and_false]
  · rw [edgeHandler_takeOut, takeEvent_takeOut]
  · rw [takeEvent_gate, Gate.onTake_pending]
  · rw [takeEvent_takeOut, edgeHandler_takeOut, edgeHandler_pending, acceptsEdge_of_input hk]

/-- Edges of different inputs commute: each writes its own gate and reads no other (R60, R160). -/
theorem edgeHandler_comm {n m : InputId} (h : m ≠ n) (a b : Tick) (s : State) :
    edgeHandler m b (edgeHandler n a s) = edgeHandler n a (edgeHandler m b s) := by
  have hn : (edgeHandler m b s).gate n = s.gate n := State.gate_setGate_ne s _ h.symm
  calc edgeHandler m b (edgeHandler n a s)
      = (edgeHandler m b s).setGate n ((s.gate n).onEdge a) := edgeHandler_setGate s h _ b
    _ = edgeHandler n a (edgeHandler m b s) := by rw [← hn]; rfl

/-- Two edges in a row complete out of Halted, the second on what the first leaves (R161). -/
theorem execAll_edge_edge {j k : Byte} {n m : InputId} (hj : inputOf j = some n) (hk : inputOf k = some m) (a b : Tick) {s : State}
    (hm : s.ledMode ≠ .halted) : execAll [.edge j a, .edge k b] s = .next (edgeHandler m b (edgeHandler n a s)) := by
  simp only [execAll, execEdge_of_live a hm hj, execEdge_of_live b ((edgeHandler_ledMode n a s).trans_ne hm) hk]

/-- Settles O40: the two orders run the two handlers, which commute. -/
theorem edgesOfDifferentInputsCommute : Obligations.EdgesOfDifferentInputsCommute := by
  intro a b s hm
  have h₀ : inputOf 0#8 = some .in0 := rfl
  have h₁ : inputOf 1#8 = some .in1 := rfl
  refine ⟨_, execAll_edge_edge h₀ h₁ a b hm, ?_⟩
  rw [execAll_edge_edge h₁ h₀ b a hm, edgeHandler_comm (by decide)]

end Sys2Proof.Machine

/-! PROOFS. The decoder and the encoder are inverse to each other, what the decoder refuses (R70 to R76), a stream that runs record by
record (R82), and `DIGIT` as a sequence of the other LED commands (R112). -/

namespace Sys2Proof

/-! ### Decode after encode -/

/-- Settles O2: behind the opcode byte each format's reader takes back exactly the operands it laid out. -/
theorem decodeReturnsEveryEncodedInstruction : Obligations.DecodeReturnsEveryEncodedInstruction := by
  intro i rest hwf
  rw [decode_encode_append]
  cases i with
  | init | setpx | clear | flush | digit | drawch => rfl
  | drawstr x y text => exact readS_text .drawstr x y text rest (of_decide_eq_true hwf)
  | render x y text => exact readS_text .render x y text rest (of_decide_eq_true hwf)
  | take n => exact readInput_of_exists .take rest hwf
  | edge n now => exact readT_of_exists .edge now rest hwf

/-- Settles O1: each worked byte string is the encoding of its instruction. -/
theorem workedEncodingsDecode : Obligations.WorkedEncodingsDecode := by
  have decodes : ∀ i : Instr, i.wellFormed = true → decode (encode i) = .ok (i, []) := fun i hwf => by
    rw [← List.append_nil (encode i), decodeReturnsEveryEncodedInstruction i [] hwf]
  exact ⟨decodes (.init 7#8) rfl, decodes (.setpx 3#8 10#8 20#8 30#8) rfl, decodes .clear rfl, decodes .flush rfl,
    decodes (.digit 5#8) rfl, decodes (.drawch 5#8 0#8 0x48#8) rfl, decodes (.drawstr 5#8 0#8 [0x48#8, 0x69#8]) rfl,
    decodes (.render 0#8 0#8 []) rfl, decodes (.take 1#8) rfl, decodes (.edge 0#8 100000#32) rfl⟩

/-! ### What a reader has accepted -/

/-- Format `B` accepts one operand byte (R72). -/
theorem readB_ok {mk : Byte → Instr} {bs : List Byte} {i : Instr} {rest : List Byte} (h : readB mk bs = .ok (i, rest)) :
    ∃ a, i = mk a ∧ bs = a :: rest := by
  unfold readB at h
  split at h
  · cases h; exact ⟨_, rfl, rfl⟩
  · cases h

/-- Format `P` accepts an index and a colour (R72). -/
theorem readP_ok {mk : Byte → Byte → Byte → Byte → Instr} {bs : List Byte} {i : Instr} {rest : List Byte}
    (h : readP mk bs = .ok (i, rest)) : ∃ idx r g b, i = mk idx r g b ∧ bs = idx :: r :: g :: b :: rest := by
  unfold readP at h
  split at h
  · cases h; exact ⟨_, _, _, _, rfl, rfl⟩
  · cases h

/-- Format `C` accepts two coordinates and a character code (R72). -/
theorem readC_ok {mk : Byte → Byte → Byte → Instr} {bs : List Byte} {i : Instr} {rest : List Byte}
    (h : readC mk bs = .ok (i, rest)) : ∃ x y c, i = mk x y c ∧ bs = x :: y :: c :: rest := by
  unfold readC at h
  split at h
  · cases h; exact ⟨_, _, _, rfl, rfl⟩
  · cases h

/-- Format `S` accepts two coordinates and as many text bytes as the length byte says, so the text fits (R71, R72, R76). -/
theorem readS_ok {mk : Byte → Byte → List Byte → Instr} {bs : List Byte} {i : Instr} {rest : List Byte}
    (h : readS mk bs = .ok (i, rest)) :
    ∃ x y text, i = mk x y text ∧ textFits text = true ∧ bs = x :: y :: BitVec.ofNat 8 text.length :: (text ++ rest) := by
  unfold readS at h
  split at h
  case h_2 => cases h
  case h_1 x y len tail =>
    split at h
    case isTrue => cases h
    case isFalse hlen =>
      cases h
      have htext : (tail.take len.toNat).length = len.toNat := List.length_take_of_le (Nat.not_lt.mp hlen)
      refine ⟨x, y, tail.take len.toNat, rfl, decide_eq_true ?_, ?_⟩
      · rw [htext]; exact Nat.le_of_lt_succ len.isLt
      · rw [htext, BitVec.ofNat_toNat, BitVec.setWidth_eq, List.take_append_drop]

/-- Format `B` of `TAKE` accepts an input that exists (R75). -/
theorem readInput_ok {mk : Byte → Instr} {bs : List Byte} {i : Instr} {rest : List Byte} (h : readInput mk bs = .ok (i, rest)) :
    ∃ n, i = mk n ∧ inputExists n = true ∧ bs = n :: rest := by
  unfold readInput at h
  split at h
  case h_2 => cases h
  case h_1 n tail =>
    split at h
    case isTrue hn => cases h; exact ⟨n, rfl, hn, rfl⟩
    case isFalse => cases h

/-- Format `T` accepts an input that exists and the four bytes of a tick (R71, R72, R75). -/
theorem readT_ok {mk : Byte → Tick → Instr} {bs : List Byte} {i : Instr} {rest : List Byte} (h : readT mk bs = .ok (i, rest)) :
    ∃ n now, i = mk n now ∧ inputExists n = true ∧
      bs = n :: tickByte now 3 :: tickByte now 2 :: tickByte now 1 :: tickByte now 0 :: rest := by
  unfold readT at h
  split at h
  case h_2 => cases h
  case h_1 n t3 t2 t1 t0 tail =>
    split at h
    case isFalse => cases h
    case isTrue hn =>
      cases h
      obtain ⟨h3, h2, h1, h0⟩ := tickByte_tickOfBytes t3 t2 t1 t0
      exact ⟨n, tickOfBytes t3 t2 t1 t0, rfl, hn, by rw [h3, h2, h1, h0]⟩

/-- Whatever the reader of an operation accepts is the operands of a well-formed instruction of that operation (R72, R73). -/
theorem readOperands_ok {o : Opcode} {bs : List Byte} {i : Instr} {rest : List Byte} (h : readOperands o bs = .ok (i, rest)) :
    i.opcode = o ∧ i.wellFormed = true ∧ bs = i.operands ++ rest := by
  cases o with
  | init | digit => obtain ⟨_, rfl, rfl⟩ := readB_ok h; exact ⟨rfl, rfl, rfl⟩
  | setpx => obtain ⟨_, _, _, _, rfl, rfl⟩ := readP_ok h; exact ⟨rfl, rfl, rfl⟩
  | clear | flush => cases h; exact ⟨rfl, rfl, rfl⟩
  | drawch => obtain ⟨_, _, _, rfl, rfl⟩ := readC_ok h; exact ⟨rfl, rfl, rfl⟩
  | drawstr | render => obtain ⟨_, _, _, rfl, hfits, rfl⟩ := readS_ok h; exact ⟨rfl, hfits, rfl⟩
  | take => obtain ⟨_, rfl, hn, rfl⟩ := readInput_ok h; exact ⟨rfl, hn, rfl⟩
  | edge => obtain ⟨_, _, rfl, hn, rfl⟩ := readT_ok h; exact ⟨rfl, hn, rfl⟩

/-- A record has the length its format gives (R72, R76). -/
theorem encode_length (i : Instr) : (encode i).length = i.recordLength := by
  cases i with
  | init | setpx | clear | flush | digit | drawch | take | edge => rfl
  | drawstr x y text => exact (Laws.EncodeShape.drawstr x y text).2
  | render x y text => exact (Laws.EncodeShape.render x y text).2

/-- Settles O3: byte 0 is the opcode byte of the operation it selects, and that operation's reader accepts its operands only. -/
theorem decoderAcceptsOnlyEncodings : Obligations.DecoderAcceptsOnlyEncodings := by
  intro bs i rest h
  unfold decode at h
  split at h
  case h_1 => cases h
  case h_2 op tail =>
    split at h
    case h_1 => cases h
    case h_2 o ho =>
      obtain ⟨rfl, hwf, rfl⟩ := readOperands_ok h
      exact ⟨hwf, by rw [Opcode.byte_of_ofByte ho]; rfl, encode_length i⟩

/-! ### What the decoder refuses -/

/-- A byte string is refused for its opcode exactly when its first byte is outside the opcode map (R74). -/
theorem decode_reserved_iff (op : Byte) (rest : List Byte) :
    decode (op :: rest) = .error (.reservedOpcode op) ↔ Opcode.ofByte op = none := by
  refine ⟨fun h => ?_, fun h => decode_cons_reserved h rest⟩
  cases ho : Opcode.ofByte op with
  | none => rfl
  | some o =>
    rw [Opcode.byte_of_ofByte ho, decode_cons_byte] at h
    exact absurd h (readOperands_ne_reserved o rest _)

/-- A record of format `B` without its operand is truncated (R75). -/
theorem readB_truncated (mk : Byte → Instr) : ∀ {bs : List Byte}, bs.length < 1 → readB mk bs = .error .truncated
  | [], _ => rfl

/-- A record of format `P` with fewer than four operand bytes is truncated (R75). -/
theorem readP_truncated (mk : Byte → Byte → Byte → Byte → Instr) :
    ∀ {bs : List Byte}, bs.length < 4 → readP mk bs = .error .truncated
  | [], _ | [_], _ | [_, _], _ | [_, _, _], _ => rfl

/-- A record of format `C` with fewer than three operand bytes is truncated (R75). -/
theorem readC_truncated (mk : Byte → Byte → Byte → Instr) :
    ∀ {bs : List Byte}, bs.length < 3 → readC mk bs = .error .truncated
  | [], _ | [_], _ | [_, _], _ => rfl

/-- A record of format `S` that ends before or inside its text is truncated (R75). -/
theorem readS_truncated (mk : Byte → Byte → List Byte → Instr) (x y : Byte) {text : List Byte} (hfits : textFits text = true) :
    ∀ {k : Nat}, k < text.length + 3 → readS mk ((x :: y :: BitVec.ofNat 8 text.length :: text).take k) = .error .truncated
  | 0, _ | 1, _ | 2, _ => rfl
  | k + 3, hk => by
    have hlen : (BitVec.ofNat 8 text.length).toNat = text.length :=
      (BitVec.toNat_ofNat _ _).trans (Nat.mod_eq_of_lt (Nat.lt_succ_of_le (of_decide_eq_true hfits)))
    have hshort : k < text.length := Nat.lt_of_add_lt_add_right hk
    simp [readS, hlen, hshort]

/-- A record of `TAKE` without its operand is truncated (R75). -/
theorem readInput_truncated (mk : Byte → Instr) : ∀ {bs : List Byte}, bs.length < 1 → readInput mk bs = .error .truncated
  | [], _ => rfl

/-- A record of format `T` with fewer than five operand bytes is truncated, whatever its input (R75). -/
theorem readT_truncated (mk : Byte → Tick → Instr) : ∀ {bs : List Byte}, bs.length < 5 → readT mk bs = .error .truncated
  | [], _ | [_], _ | [_, _], _ | [_, _, _], _ | [_, _, _, _], _ => rfl

/-- The operands of a well-formed instruction are not read when some are missing at the end (R75). -/
theorem readOperands_take {i : Instr} (hwf : i.wellFormed = true) {k : Nat} (hk : k < i.operands.length) :
    readOperands i.opcode (i.operands.take k) = .error .truncated := by
  have hlen : (i.operands.take k).length < i.operands.length := (List.length_take_le k _).trans_lt hk
  cases i with
  | init pin => exact readB_truncated _ hlen
  | setpx idx r g b => exact readP_truncated _ hlen
  | clear | flush => exact absurd hk (Nat.not_lt_zero k)
  | digit v => exact readB_truncated _ hlen
  | drawch x y c => exact readC_truncated _ hlen
  | drawstr x y text => exact readS_truncated _ x y hwf hk
  | render x y text => exact readS_truncated _ x y hwf hk
  | take n => exact readInput_truncated _ hlen
  | edge n now => exact readT_truncated _ hlen

/-- A well-formed instruction's record cut short is no record (R75). -/
theorem decode_take_encode {i : Instr} (hwf : i.wellFormed = true) {k : Nat} (hk : k < i.recordLength) :
    decode ((encode i).take k) = .error .truncated := by
  cases k with
  | zero => rfl
  | succ k =>
    have hoperands : k < i.operands.length := by
      rw [← encode_length, encode, List.length_cons] at hk
      exact Nat.lt_of_succ_lt_succ hk
    rw [encode, List.take_succ_cons, decode_cons_byte, readOperands_take hwf hoperands]

/-- `TAKE` of an input that does not exist is not read (R75). -/
theorem readInput_of_missing (mk : Byte → Instr) {i : Byte} (rest : List Byte) (h : inputExists i = false) :
    readInput mk (i :: rest) = .error (.noSuchInput i) := by simp [readInput, h]

/-- `EDGE` of an input that does not exist is not read (R75). -/
theorem readT_of_missing (mk : Byte → Tick → Instr) {i : Byte} (t3 t2 t1 t0 : Byte) (rest : List Byte)
    (h : inputExists i = false) : readT mk (i :: t3 :: t2 :: t1 :: t0 :: rest) = .error (.noSuchInput i) := by simp [readT, h]

end Sys2Proof

namespace Sys2Proof.Machine

/-! ### What the machine refuses -/

/-- A presented byte string that is no record is refused for the reason the decoder gives (R74, R75, log 22). -/
theorem step_of_decode_error {s : State} {e : DecodeError} (hr : s.recordNext) (hd : decode s.stream = .error e) :
    step s = .refused (refusalOf e) := by
  rw [step_of_recordNext hr, hd]

/-- Settles O4: the bytes outside the opcode map are those R74 lists, and no reader of a byte inside it answers that refusal. -/
theorem reservedOpcodesAreRefused : Obligations.ReservedOpcodesAreRefused := by
  intro op rest
  refine ⟨?_, fun hd s hr hs => step_of_decode_error hr (e := .reservedOpcode op) (hs ▸ hd)⟩
  rw [decode_reserved_iff, Opcode.ofByte_eq_none_iff]

/-- Settles O5: the decoder misses operand bytes in every record cut short, and the step refuses what the decoder refuses. -/
theorem truncatedRecordsAreRefused : Obligations.TruncatedRecordsAreRefused := by
  intro i k hwf hk
  have hd : decode ((encode i).take k) = .error .truncated := decode_take_encode hwf hk
  exact ⟨hd, fun s hr hs => step_of_decode_error hr (e := .truncated) (hs ▸ hd)⟩

/-- Settles O6: an operand of 2 or more names no input, for the decoder and for the operations alike. -/
theorem missingInputsAreRefused : Obligations.MissingInputsAreRefused := by
  intro i t3 t2 t1 t0 rest hi
  have hdec : inputExists i = false := decide_eq_false (Nat.not_lt.mpr hi)
  have hnone : inputOf i = none := inputOf_eq_none.mpr hi
  refine ⟨?_, ?_, fun s hm => ⟨?_, fun now => ?_⟩⟩
  · exact (decode_cons_byte .take _).trans (readInput_of_missing .take rest hdec)
  · exact (decode_cons_byte .edge _).trans (readT_of_missing .edge t3 t2 t1 t0 rest hdec)
  · exact (whenLive_of_live hm _).trans (withInput_of_none hnone _)
  · exact (whenLive_of_live hm _).trans (withInput_of_none hnone _)

/-! ### A stream of records -/

/-- `DIGIT v` of a digit completes in Ready: the body of `FLUSH` on the glyph's frame, whatever the generator holds (R111). -/
theorem execDigit_of_le {v : Byte} {s : State} (hm : s.ledMode = .ready) (hv : v.toNat ≤ 9) :
    exec (.digit v) s = .next (flushFrame { s with px := digitFrame s.rom v.toNat }) := by
  refine (whenReady_of_ready hm _).trans ?_
  unfold digitOf
  rw [if_pos hv]

/-- `FLUSH` completes in Ready, whatever the generator holds (R107). -/
theorem execFlush_of_ready {s : State} (hm : s.ledMode = .ready) : exec .flush s = .next (flushFrame s) :=
  whenReady_of_ready hm _

/-- An operation that completes does so wherever the stream stands: it reads neither stream nor position (R21, R82). -/
theorem exec_pastRecord {i : Instr} {s t : State} (h : exec i s = .next t) (rest : List Byte) :
    exec i (s.pastRecord rest) = .next (t.pastRecord rest) := by
  have hlive : (s.pastRecord rest).ledMode ≠ .halted := live_of_exec_next (s := s) h
  cases i with
  | init pin =>
    obtain ⟨hm, ⟨hc, rfl⟩ | ⟨hc, rfl⟩⟩ := execInit_next h <;> simp [exec, execInit, State.pastRecord, raiseConfigFatal, hm, hc]
  | setpx idx r g b => obtain ⟨hm, rfl⟩ := execSetpx_next h; exact execSetpx_of_ready idx r g b hm
  | clear => obtain ⟨hm, rfl⟩ := execClear_next h; exact execClear_of_ready hm
  | flush => obtain ⟨hm, rfl⟩ := execFlush_next h; exact execFlush_of_ready hm
  | digit v =>
    obtain ⟨hm, ⟨hv, rfl⟩ | ⟨hv, rfl⟩⟩ := execDigit_next h
    · exact execDigit_of_le hm hv
    · exact execDigit_of_gt hm hv
  | drawch x y c => obtain ⟨-, rfl⟩ := execDrawch_next h; exact execDrawch_of_live x y c hlive
  | drawstr x y text => obtain ⟨-, rfl⟩ := execDrawstr_next h; exact execDrawstr_of_live x y text hlive
  | render x y text => obtain ⟨-, rfl⟩ := execRender_next h; exact execRender_of_live x y text hlive
  | take k => obtain ⟨-, n, hn, rfl⟩ := execTake_next h; rw [execTake_of_live hlive hn]; cases n <;> rfl
  | edge k now => obtain ⟨-, n, hn, rfl⟩ := execEdge_next h; rw [execEdge_of_live now hlive hn]; cases n <;> rfl

/-- A list of instructions that completes starts with one that does (R82). -/
theorem execAll_cons_next {i : Instr} {prog : List Instr} {s t : State} (h : execAll (i :: prog) s = .next t) :
    ∃ u, exec i s = .next u ∧ execAll prog u = .next t := by
  unfold execAll at h
  cases hx : exec i s with
  | next u => rw [hx] at h; exact ⟨u, rfl, h⟩
  | fault f => rw [hx] at h; cases h
  | refused r => rw [hx] at h; cases h

/-- Behind an instruction that completes the others execute (R82). -/
theorem execAll_cons_of_next {i : Instr} {s u : State} (h : exec i s = .next u) (prog : List Instr) :
    execAll (i :: prog) s = execAll prog u := by
  simp only [execAll, h]

/-- A list of instructions that completes does so wherever the stream stands (R21, R82). -/
theorem execAll_pastRecord (rest : List Byte) : ∀ {prog : List Instr} {s t : State}, execAll prog s = .next t →
    execAll prog (s.pastRecord rest) = .next (t.pastRecord rest) := by
  intro prog
  induction prog with
  | nil => intro s t h; cases h; rfl
  | cons i prog ih =>
    intro s t h
    obtain ⟨u, hx, hrest⟩ := execAll_cons_next h
    rw [execAll_cons_of_next (exec_pastRecord hx rest), ih hrest]

/-- With the record of an instruction at the front of the stream and no input of the environment, the step is the instruction, and
the stream stands behind the record (R70, R82). -/
theorem step_of_encoded {i : Instr} {rest : List Byte} {s u : State} (hwf : i.wellFormed = true) (henv : s.env = [])
    (hs : s.stream = encode i ++ rest) (hx : exec i s = .next u) : step s = .next (u.pastRecord rest) := by
  have hr : s.recordNext := ⟨live_of_exec_next hx, by simp [hs, encode], by simp [henv]⟩
  have hd : decode s.stream = .ok (i, rest) := by rw [hs, decodeReturnsEveryEncodedInstruction i rest hwf]
  rw [step_of_recordNext hr, hd]
  simp only [hx, retire]

/-- A run begins with its first step. -/
theorem run_succ_of_step {M : Host.Core} {s t : M.State} (h : M.step s = .next t) (n : Nat) : M.run (n + 1) s = M.run n t := by
  simp only [Host.Core.run, h]

/-- Settles O8, by induction on the list: the first record is the first step, and the others run from behind it. -/
theorem streamRunsItsRecordsInOrder : Obligations.StreamRunsItsRecordsInOrder := by
  intro prog rest
  induction prog with
  | nil =>
    intro s t _ _ hs h
    cases h
    rw [← show s.stream = rest from hs]
    rfl
  | cons i prog ih =>
    intro s t hwf henv hs h
    obtain ⟨hi, hprog⟩ := List.forall_mem_cons.mp hwf
    obtain ⟨u, hx, hrest⟩ := execAll_cons_next h
    obtain ⟨hspos, -, huenv, -⟩ := operationsLeaveTheStreamAndRomsAlone i s u hx
    rw [List.flatMap_cons, List.append_assoc] at hs
    have hstep : step s = .next (u.pastRecord (prog.flatMap encode ++ rest)) := step_of_encoded hi henv hs hx
    have hrun := ih (u.pastRecord (prog.flatMap encode ++ rest)) _ hprog (huenv.trans henv) rfl (execAll_pastRecord _ hrest)
    have hpos : u.spos + 1 + prog.length = s.spos + (prog.length + 1) := by omega
    calc Host.Core.run core (prog.length + 1) s
        = Host.Core.run core prog.length (u.pastRecord (prog.flatMap encode ++ rest)) := by
          exact run_succ_of_step (M := core) hstep prog.length
      _ = .next { t with stream := rest, spos := u.spos + 1 + prog.length } := hrun
      _ = .next { t with stream := rest, spos := s.spos + (prog.length + 1) } := by rw [hpos]

/-! ### `DIGIT` as a sequence of commands -/

/-- Behind a list of instructions that completes the others execute (R82). -/
theorem execAll_append_of_next {b : List Instr} {t : State} : ∀ {a : List Instr} {s : State}, execAll a s = .next t →
    execAll (a ++ b) s = execAll b t := by
  intro a
  induction a with
  | nil => intro s h; cases h; rfl
  | cons i a ih =>
    intro s h
    obtain ⟨u, hx, hrest⟩ := execAll_cons_next h
    rw [List.cons_append, execAll_cons_of_next hx, ih hrest]

/-- The `SETPX` that lights a cell of the matrix in full red (R112). -/
def setpxRed (p : Nat × Nat) : Instr := .setpx (BitVec.ofNat 8 (physOf 5 p.1 p.2)) 255#8 0#8 0#8

/-- It sets the pixel at the cell's logical coordinates (R102, R105). -/
theorem exec_setpxRed {p : Nat × Nat} (hp : p.1 < 5 ∧ p.2 < 5) {s : State} (hm : s.ledMode = .ready) :
    exec (setpxRed p) s = .next { s with px := setLogicalPixel s.px p.1 p.2 Color.fullRed } := by
  have hlt : physOf 5 p.1 p.2 < 5 * 5 := physOf_lt hp.1 hp.2
  have hidx : indexOf (BitVec.ofNat 8 (physOf 5 p.1 p.2)) = physOf 5 p.1 p.2 :=
    (BitVec.toNat_ofNat _ _).trans (Nat.mod_eq_of_lt (by omega))
  rw [setpxRed, execSetpx_of_ready _ _ _ _ hm, hidx, setLogicalPixel_eq _ hp.1 hp.2]
  rfl

/-- The `SETPX` of a list of cells draw those cells one after the other (R105). -/
theorem execAll_setpxRed : ∀ {cells : List (Nat × Nat)}, (∀ p ∈ cells, p.1 < 5 ∧ p.2 < 5) →
    ∀ {s : State}, s.ledMode = .ready → execAll (cells.map setpxRed) s =
      .next { s with px := cells.foldl (fun px p => setLogicalPixel px p.1 p.2 Color.fullRed) s.px } := by
  intro cells
  induction cells with
  | nil => intros; rfl
  | cons p cells ih =>
    intro hcells s hm
    obtain ⟨hp, hrest⟩ := List.forall_mem_cons.mp hcells
    rw [List.map_cons, execAll_cons_of_next (exec_setpxRed hp hm)]
    exact ih hrest hm

/-- A digit's frame is its set cells drawn on a black frame (R111). -/
theorem digitFrame_eq_foldl_filter (rom : Rom) (v : Nat) :
    digitFrame rom v = (digitCells.filter fun p => digitBit rom v p.1 p.2).foldl
      (fun px p => setLogicalPixel px p.1 p.2 Color.fullRed) blackFrame := by
  rw [digitFrame, List.foldl_filter]

/-- Settles O26: after `CLEAR` and the `SETPX` the frame is the digit's, and `FLUSH` sends it. -/
theorem digitIsClearSetpxFlush : Obligations.DigitIsClearSetpxFlush := by
  intro v s hm hv
  have hcells : ∀ p ∈ digitCells.filter (fun p => digitBit s.rom v.toNat p.1 p.2), p.1 < 5 ∧ p.2 < 5 :=
    fun p hp => mem_digitCells.mp (List.mem_of_mem_filter hp)
  have hdrawn : execAll ([Instr.clear] ++ (digitCells.filter fun p => digitBit s.rom v.toNat p.1 p.2).map setpxRed) s =
      .next { s with px := digitFrame s.rom v.toNat } := by
    rw [List.singleton_append, execAll_cons_of_next (execClear_of_ready hm), digitFrame_eq_foldl_filter]
    exact execAll_setpxRed hcells hm
  have hsent : execAll [.flush] { s with px := digitFrame s.rom v.toNat } = exec (.digit v) s :=
    (execAll_cons_of_next (execFlush_of_ready (s := { s with px := digitFrame s.rom v.toNat }) hm) []).trans
      (execDigit_of_le hm hv).symm
  exact ((execAll_append_of_next hdrawn).trans hsent).symm

end Sys2Proof.Machine

/-! PROOFS. The LED Matrix Driver: the serpentine map as a bijection (R101), what a repeated `FLUSH` and a `DIGIT` put on the wire (R114),
the driver's modes (R103, R104, R113) and the LED Frame (R105, R106). -/

namespace Sys2Proof.Machine

/-! ### The serpentine map -/

/-- Place `a` of row `y`, counted in the direction the row runs: forward on an even row, from its end on an odd one (R100). -/
def alongRow (w y a : Nat) : Nat := if y % 2 = 0 then a else w - 1 - a

/-- Either way the place stays inside the row. -/
theorem alongRow_lt {w a : Nat} (ha : a < w) (y : Nat) : alongRow w y a < w := by
  unfold alongRow
  split <;> omega

/-- Counting in the direction of the row twice is counting forward. -/
theorem alongRow_alongRow {w a : Nat} (ha : a < w) (y : Nat) : alongRow w y (alongRow w y a) = a := by
  unfold alongRow
  split <;> omega

/-- `phys` counts along its row from the row's first index on (R100). -/
theorem physOf_eq {w x : Nat} (hx : x < w) (y : Nat) : physOf w x y = y * w + alongRow w y x := by
  have hrow : (y + 1) * w = y * w + w := Nat.succ_mul y w
  unfold physOf alongRow
  split <;> omega

/-- The place in the row is the remainder of `phys` by the width (R101). -/
theorem physOf_mod {w x : Nat} (hx : x < w) (y : Nat) : physOf w x y % w = alongRow w y x := by
  rw [physOf_eq hx, Nat.mul_add_mod_of_lt (alongRow_lt hx y)]

/-- `phys` undoes the formula of R101. -/
theorem physOf_alongRow {w : Nat} (hw : 0 < w) (i : Nat) : physOf w (alongRow w (i / w) (i % w)) (i / w) = i := by
  have hmod : i % w < w := Nat.mod_lt i hw
  rw [physOf_eq (alongRow_lt hmod _), alongRow_alongRow hmod, Nat.div_add_mod']

/-- Settles O24: in its row `phys` is `alongRow`, which is its own inverse, and the row is the quotient by the width. -/
theorem serpentineMapIsABijection : Obligations.SerpentineMapIsABijection := by
  intro w h hw
  refine ⟨fun x y hx hy => ⟨physOf_lt hx hy, fun he => if_pos he, fun ho => if_neg (by omega), physOf_div hx, ?_⟩, fun i hi => ?_⟩
  · rw [physOf_mod hx]
    exact alongRow_alongRow hx y
  · exact ⟨alongRow w (i / w) (i % w), i / w, alongRow_lt (Nat.mod_lt i hw) _, Nat.div_lt_of_lt_mul hi, physOf_alongRow hw i, rfl, rfl⟩

/-! ### The wire after `FLUSH` and `DIGIT` -/

/-- Settles O22: each `FLUSH` sends the wire's frame of the same pixels, and those of a cleared frame are zeros. -/
theorem repeatedFlushSendsTheSameStream : Obligations.RepeatedFlushSendsTheSameStream := by
  intro s hm hq hs
  constructor
  · have hfirst := execFlush_of_idle hm hq hs
    have hsecond := execFlush_of_idle (s := { s with ledOut := s.ledOut ++ wireFrame s.px }) hm hq hs
    exact ⟨_, wireFrame s.px, (execAll_cons_of_next hfirst _).trans (execAll_cons_of_next hsecond _), rfl, wireFrame_length s.px⟩
  · have hclear := execClear_of_ready hm
    have hflush := execFlush_of_idle (s := { s with px := blackFrame }) hm hq hs
    refine ⟨_, (execAll_cons_of_next hclear _).trans (execAll_cons_of_next hflush _), ?_⟩
    dsimp only
    rw [wireFrame, frameSymbols_blackFrame, List.append_assoc]

/-- The physical indices of a digit's cells are the indices of the frame, each once (R101). -/
theorem map_physOf_digitCells_perm : (digitCells.map fun p => physOf 5 p.1 p.2).Perm (List.range Config.numPixels) := by decide

/-- A frame is its registers in index order (R51). -/
theorem toList_eq_map_range (px : Vector Color Config.numPixels) :
    px.toList = (List.range Config.numPixels).map fun j => px[j]?.getD Color.black :=
  List.ext_getElem (by simp) fun i hi _ => by
    have hlt : i < Config.numPixels := by simpa using hi
    simp [hlt]

/-- The pixels of a digit's frame, cell by cell in place of index by index (R111). -/
theorem digitFrame_toList_perm (rom : Rom) (v : Nat) :
    (digitFrame rom v).toList.Perm (digitCells.map fun p => if digitBit rom v p.1 p.2 then Color.fullRed else Color.black) := by
  have hcells : (digitCells.map fun p => physOf 5 p.1 p.2).map (fun j => (digitFrame rom v)[j]?.getD Color.black) =
      digitCells.map fun p => if digitBit rom v p.1 p.2 then Color.fullRed else Color.black := by
    rw [List.map_map]
    refine List.map_congr_left fun p hp => ?_
    obtain ⟨hx, hy⟩ := mem_digitCells.mp hp
    rw [Function.comp_apply, digitFrame_physOf rom v hx hy, Option.getD_some]
  rw [toList_eq_map_range, ← hcells]
  exact (map_physOf_digitCells_perm.map _).symm

/-- A red pixel is eight `B1` on the wire and a black one none (R51, R108). -/
theorem pixelSymbols_count_b1 (lit : Bool) :
    (pixelSymbols (if lit then Color.fullRed else Color.black)).count .b1 = if lit then 8 else 0 := by cases lit <;> rfl

/-- Pixels lit in full red on black put eight `B1` on the wire for each that is lit. -/
theorem flatMap_pixelSymbols_count_b1 (lit : Nat × Nat → Bool) (cells : List (Nat × Nat)) :
    ((cells.map fun p => if lit p then Color.fullRed else Color.black).flatMap pixelSymbols).count .b1 =
      8 * (cells.filter lit).length := by
  induction cells with
  | nil => rfl
  | cons p cells ih =>
    rw [List.map_cons, List.flatMap_cons, List.count_append, ih, pixelSymbols_count_b1]
    cases hp : lit p with
    | false => simp [hp]
    | true => simp [hp, Nat.mul_succ, Nat.add_comm]

/-- The wire's frame of a digit holds eight `B1` for each set bit of its glyph; the latch is none (R114 (e)). -/
theorem wireFrame_digitFrame_count_b1 (rom : Rom) (v : Nat) :
    (wireFrame (digitFrame rom v)).count .b1 = 8 * (digitCells.filter fun p => digitBit rom v p.1 p.2).length := by
  have hlatch : [LedSymbol.latch].count .b1 = 0 := rfl
  rw [wireFrame, List.count_append, hlatch, frameSymbols, ((digitFrame_toList_perm rom v).flatMap_right _).count_eq,
    flatMap_pixelSymbols_count_b1 fun p => digitBit rom v p.1 p.2, Nat.add_zero]

/-- Settles O27: what is sent is the wire's frame of the digit. -/
theorem digitSendsEightOnesPerLitBit : Obligations.DigitSendsEightOnesPerLitBit := by
  intro v s hm hq hs hv
  exact ⟨_, wireFrame (digitFrame s.rom v.toNat), execDigit_of_idle hm hq hs hv, rfl, wireFrame_digitFrame_count_b1 s.rom v.toNat⟩

/-! ### The modes -/

/-- `INIT` in Uninit with a free channel claims it (R103). -/
theorem execInit_of_free (pin : Byte) {s : State} (hm : s.ledMode = .uninit) (hc : s.chanFree = true) :
    exec (.init pin) s = .next { s with ledPin := pin, px := blackFrame, ledMode := .ready } := by
  simp [exec, execInit, hm, hc]

/-- `INIT` in Uninit without a free channel takes `ConfigFatal` (R104). -/
theorem execInit_of_busy (pin : Byte) {s : State} (hm : s.ledMode = .uninit) (hc : s.chanFree = false) :
    exec (.init pin) s = .next (raiseConfigFatal s) := by
  simp [exec, execInit, hm, hc]

/-- `INIT` in Ready has no meaning (R103). -/
theorem execInit_of_ready (pin : Byte) {s : State} (hm : s.ledMode = .ready) : exec (.init pin) s = .refused .alreadyInitialised := by
  simp [exec, execInit, hm]

/-- Settles O17, mode by mode. -/
theorem initClaimsTheChannelOrHalts : Obligations.InitClaimsTheChannelOrHalts := by
  intro pin s
  refine ⟨rfl, fun hm hc => ?_, fun hm hc => ?_, execInit_of_ready pin, exec_of_halted _⟩
  · exact ⟨_, execInit_of_free pin hm hc, rfl, blackFrame_getElem⟩
  · exact ⟨_, execInit_of_busy pin hm hc, rfl, rfl, fun i => exec_of_halted i (raiseConfigFatal_ledMode s)⟩

/-- The four commands of the initialised driver are guarded by `whenReady`, and in Ready each of them completes (R113). -/
theorem ledCommand_whenReady (s : State) {i : Instr}
    (hi : (∃ idx r g b, i = .setpx idx r g b) ∨ i = .clear ∨ i = .flush ∨ ∃ v, i = .digit v) :
    ∃ t, exec i s = whenReady s (.next t) := by
  rcases hi with ⟨idx, r, g, b, rfl⟩ | rfl | rfl | ⟨v, rfl⟩
  · exact ⟨_, rfl⟩
  · exact ⟨_, rfl⟩
  · exact ⟨_, rfl⟩
  · show ∃ t, execDigit v s = _
    unfold execDigit
    cases digitOf v <;> exact ⟨_, rfl⟩

/-- Settles O18: the four commands by their guard, Halted for every operation. -/
theorem ledCommandsNeedReady : Obligations.LedCommandsNeedReady := by
  intro s i hi
  obtain ⟨t, hx⟩ := ledCommand_whenReady s hi
  refine ⟨fun hm => ⟨t, ?_⟩, fun hm => ?_, fun hm j => exec_of_halted j hm⟩
  · rw [hx, whenReady_of_ready hm]
  · rw [hx, whenReady_of_uninit hm]

/-! ### The LED Frame -/

/-- Settles O19: the frame after `SETPX` is `setPixel`, which rejects an index outside it. -/
theorem setpxStoresOnePixel : Obligations.SetpxStoresOnePixel := by
  intro idx r g b s hm
  have hx := execSetpx_of_ready idx r g b hm
  refine ⟨rfl, fun _ => ⟨_, hx, rfl, setPixel_getElem s.px _ _⟩, fun hidx => ?_⟩
  have hpx : setPixel s.px (indexOf idx) (colorOf r g b) = s.px := setPixel_of_le s.px _ hidx
  rw [hx, hpx]

/-- Settles O20: the frame after `CLEAR` is the black one, whatever it was before. -/
theorem clearBlackensTheFrame : Obligations.ClearBlackensTheFrame := by
  intro s hm
  exact ⟨rfl, _, execClear_of_ready hm, rfl, blackFrame_getElem, execClear_of_ready (s := { s with px := blackFrame }) hm⟩

end Sys2Proof.Machine

/-! PROOFS. The Bitmap Renderer: which codes have a glyph (R130), the pixel-set primitive byte by byte (R131), a text in two pieces
(R136 (d)), and `RENDER` on whatever the framebuffer held (R134, R136 (c), R211). -/

namespace Sys2Proof.Machine

/-! ### The pixel-set primitive -/

/-- Settles O29: inside the display every byte is read off `read_setFbPixel`; outside it nothing is written. -/
theorem pixelSetOrsOneBit : Obligations.PixelSetOrsOneBit := by
  intro epoch u v m
  refine ⟨fun hu hu' hv hv' => ?_, fun hoff => ?_⟩
  · have hon : onDisplay u v = true := (onDisplay_iff u v).mpr ⟨hu, hu', hv, hv'⟩
    refine ⟨?_, fun a ha => ?_⟩
    · exact (read_setFbPixel epoch u v m _).trans (if_pos ⟨hon, rfl⟩)
    · exact (read_setFbPixel epoch u v m a).trans (if_neg fun h => ha h.2)
  · refine setFbPixel_of_off epoch m (Bool.eq_false_iff.mpr fun hon => ?_)
    have := (onDisplay_iff u v).mp hon
    omega

/-! ### Glyphs -/

/-- A code from `'A'` to `'Z'` selects `FONT_UPPER` by its offset from `'A'` (R130). -/
theorem glyph_of_upper (rom : Rom) {c : Byte} {k : Fin 26} (hc : c.toNat = 0x41 + k.val) : glyph rom c = some rom.fontUpper[k] := by
  have hupper : 0x41 ≤ c.toNat ∧ c.toNat ≤ 0x5A := by omega
  rw [glyph, dif_pos hupper]
  simp [hc]

/-- A code from `'a'` to `'z'` selects `FONT_LOWER` by its offset from `'a'` (R130). -/
theorem glyph_of_lower (rom : Rom) {c : Byte} {k : Fin 26} (hc : c.toNat = 0x61 + k.val) : glyph rom c = some rom.fontLower[k] := by
  have hupper : ¬ (0x41 ≤ c.toNat ∧ c.toNat ≤ 0x5A) := by omega
  have hlower : 0x61 ≤ c.toNat ∧ c.toNat ≤ 0x7A := by omega
  rw [glyph, dif_neg hupper, dif_pos hlower]
  simp [hc]

/-- A code that is no letter has no glyph (R130). -/
theorem glyph_of_no_letter (rom : Rom) {c : Byte} (hupper : ¬ (0x41 ≤ c.toNat ∧ c.toNat ≤ 0x5A))
    (hlower : ¬ (0x61 ≤ c.toNat ∧ c.toNat ≤ 0x7A)) : glyph rom c = none := by
  rw [glyph, dif_neg hupper, dif_neg hlower]

/-- A character without a glyph draws nothing (R132). -/
theorem drawChar_of_no_glyph (epoch : Nat) {rom : Rom} (x y : Int) {c : Byte} (m : Memory) (h : glyph rom c = none) :
    drawChar epoch rom x y c m = m := by
  rw [drawChar, h]

/-- Settles O30: the two ranges of letters, and every code outside both. -/
theorem onlyLettersHaveGlyphs : Obligations.OnlyLettersHaveGlyphs := by
  refine ⟨fun rom k => ⟨glyph_of_upper rom ?_, glyph_of_lower rom ?_⟩, fun c hupper hlower => ?_⟩
  · exact Nat.mod_eq_of_lt (by omega)
  · exact Nat.mod_eq_of_lt (by omega)
  · have hnone : ∀ rom, glyph rom c = none := fun rom => glyph_of_no_letter rom hupper hlower
    refine ⟨hnone, fun x y s hm => ?_⟩
    rw [execDrawch_of_live x y c hm, drawChar_of_no_glyph _ _ _ _ (hnone s.rom)]

/-! ### A text in two pieces -/

/-- A character that is no newline is drawn and moves the cursor six columns on (R133). -/
theorem drawText_cons_of_ne (epoch : Nat) (rom : Rom) (x cx cy : Int) {c : Byte} (hc : c ≠ newline) (text : List Byte) (m : Memory) :
    drawText epoch rom x cx cy (c :: text) m = drawText epoch rom x (cx + 6) cy text (drawChar epoch rom cx cy c m) :=
  if_neg hc

/-- After a piece without newlines the rest of the text goes on from where the piece has left the cursor (R133). -/
theorem drawText_append (epoch : Nat) (rom : Rom) (x cy : Int) {front : List Byte} (hfront : newline ∉ front) (back : List Byte) :
    ∀ (cx : Int) (m : Memory), drawText epoch rom x cx cy (front ++ back) m =
      drawText epoch rom x (cx + 6 * front.length) cy back (drawText epoch rom x cx cy front m) := by
  induction front with
  | nil => intro cx m; simp [drawText]
  | cons c front ih =>
    intro cx m
    obtain ⟨hc, hrest⟩ := List.ne_and_not_mem_of_not_mem_cons hfront
    have hcursor : cx + 6 + 6 * (front.length : Int) = cx + 6 * ((c :: front).length : Int) := by
      rw [List.length_cons]; omega
    rw [List.cons_append, drawText_cons_of_ne _ _ _ _ _ hc.symm, drawText_cons_of_ne _ _ _ _ _ hc.symm, ih hrest, hcursor]

/-- The column a text began at matters only to its newlines (R133). -/
theorem drawText_of_no_newline (epoch : Nat) (rom : Rom) (x x' cy : Int) {text : List Byte} (htext : newline ∉ text) :
    ∀ (cx : Int) (m : Memory), drawText epoch rom x cx cy text m = drawText epoch rom x' cx cy text m := by
  induction text with
  | nil => intro _ _; rfl
  | cons c text ih =>
    intro cx m
    obtain ⟨hc, hrest⟩ := List.ne_and_not_mem_of_not_mem_cons htext
    rw [drawText_cons_of_ne _ _ _ _ _ hc.symm, drawText_cons_of_ne _ _ _ _ _ hc.symm, ih hrest]

/-- Settles O33: the second piece goes on from the cursor of the first, and having no newline it may as well begin there. -/
theorem textDrawsPieceByPiece : Obligations.TextDrawsPieceByPiece := by
  intro epoch rom x y front back m hfront hback
  rw [drawText_append epoch rom x y hfront]
  exact drawText_of_no_newline epoch rom _ _ y hback _ _

/-! ### `RENDER` and the old framebuffer -/

/-- The pixels of the display determine every byte of the framebuffer (R52, R53). -/
theorem Memory.read_eq_of_pixel_iff {e₁ e₂ : Nat} {m₁ m₂ : Memory}
    (h : ∀ u v : Nat, u < 128 → v < 64 → (Memory.pixel e₁ m₁ u v = true ↔ Memory.pixel e₂ m₂ u v = true))
    {a : Nat} (ha : a < 1024) : Memory.read e₁ m₁ a = Memory.read e₂ m₂ a := by
  refine BitVec.eq_of_getLsbD_eq fun i hi => ?_
  have hbit := h (a % 128) (a / 128 * 8 + i) (by omega) (by omega)
  have haddr : fbAddress (a % 128) (a / 128 * 8 + i) = a := by unfold fbAddress Config.dispW; omega
  have hrow : (a / 128 * 8 + i) % 8 = i := by omega
  rw [Memory.pixel, Memory.pixel, haddr, hrow] at hbit
  exact Bool.eq_iff_iff.mpr hbit

/-- A byte of zeros shows no pixel (R53). -/
theorem Memory.pixel_of_read_zero {epoch : Nat} {m : Memory} {u v : Nat} (h : Memory.read epoch m (fbAddress u v) = 0#8) :
    Memory.pixel epoch m u v = false := by
  rw [Memory.pixel, h, BitVec.getLsbD_zero]

/-- Settles O35: both buffers show exactly the ink of the text, and the pixels determine the bytes. -/
theorem renderIsDrawstrOnABlankBuffer : Obligations.RenderIsDrawstrOnABlankBuffer := by
  intro x y text s z t t' hrom hblank hrender hdrawstr a ha
  obtain ⟨-, rfl⟩ := execRender_next hrender
  obtain ⟨-, rfl⟩ := execDrawstr_next hdrawstr
  rw [State.fbRead, State.fbRead, transfer_fb, transfer_epoch]
  refine Memory.read_eq_of_pixel_iff (fun u v hu hv => ?_) ha
  have hoff : Memory.pixel z.epoch z.fb u v = false := Memory.pixel_of_read_zero (hblank _ (fbAddress_lt hu hv))
  rw [pixel_drawText _ _ _ _ _ _ _ _ _ hu hv, pixel_drawText _ _ _ _ _ _ _ _ _ hu hv, clearedMemory_pixel _ hu hv, hoff, hrom]

/-- Settles O36: after the clear every byte is known, so neither the drawing nor the frame reads an old byte. -/
theorem renderForgetsTheOldFramebuffer : Obligations.RenderForgetsTheOldFramebuffer := by
  intro x y text s₁ s₂ t₁ t₂ hrom h₁ h₂
  obtain ⟨-, rfl⟩ := execRender_next h₁
  obtain ⟨-, rfl⟩ := execRender_next h₂
  have hfb : drawText s₁.epoch s₁.rom (coordOf x) (coordOf x) (coordOf y) text clearedMemory =
      drawText s₂.epoch s₂.rom (coordOf x) (coordOf x) (coordOf y) text clearedMemory := by
    rw [hrom]
    exact drawText_of_total s₁.epoch s₂.epoch _ _ text _ _ clearedMemory_total
  constructor
  · rw [transfer_fb, transfer_fb, hfb]
  · rw [transfer_dispOut, transfer_dispOut, List.getLast?_concat, List.getLast?_concat, hfb]
    exact congrArg some (frameBytes_of_total (total_drawText _ _ _ text _ _ clearedMemory_total) _ _)

end Sys2Proof.Machine

/-! PROOFS. The Debounce Gate: the window test of an edge (R161), a take (R162), and over a list of operations the distance between
accepted edges and the conservation of events (R165). -/

namespace Sys2Proof.Machine

/-! ### One edge, one take -/

/-- A discarded edge changes nothing (R161). -/
theorem edgeHandler_of_discarded {n : InputId} {now : Tick} {s : State} (h : edgeAccepted now (s.gate n).lastAccepted = false) :
    edgeHandler n now s = s := by
  rw [edgeHandler, Gate.onEdge_discarded h, State.setGate_gate]

/-- An accepted edge records its tick and sets the flag (R161). -/
theorem edgeHandler_of_accepted {n : InputId} {now : Tick} {s : State} (h : edgeAccepted now (s.gate n).lastAccepted = true) :
    edgeHandler n now s = s.setGate n { s.gate n with lastAccepted := now, pending := true } := by
  rw [edgeHandler, Gate.onEdge_accepted h]

/-- An edge leaves the gate of the other input (R160). -/
theorem edgeHandler_gate_ne {n m : InputId} (h : n ≠ m) (now : Tick) (s : State) : (edgeHandler m now s).gate n = s.gate n :=
  State.gate_setGate_ne s _ h

/-- A take leaves the gate of the other input (R160). -/
theorem takeEvent_gate_ne {n m : InputId} (h : n ≠ m) (s : State) : (takeEvent m s).gate n = s.gate n := by
  rw [takeEvent, respond_gate, State.gate_setGate_ne s _ h]

/-- An operation that is neither a `TAKE` nor an `EDGE` leaves both gates (R20, R160). -/
theorem gate_of_exec_other {n : InputId} {i : Instr} {s t : State} (hx : exec i s = .next t) (htake : ∀ k, i ≠ .take k)
    (hedge : ∀ k now, i ≠ .edge k now) : t.gate n = s.gate n :=
  gate_of_exec_next ⟨fun k h => absurd h (htake k), fun k now h => absurd h (hedge k now)⟩ hx

/-- Settles O37: out of Halted `EDGE` is the handler, and the window test decides which of its two cases runs. -/
theorem edgeWindowTest : Obligations.EdgeWindowTest := by
  intro now s hm
  have h₀ : exec (.edge 0#8 now) s = .next (edgeHandler .in0 now s) := execEdge_of_live now hm rfl
  have h₁ : exec (.edge 1#8 now) s = .next (edgeHandler .in1 now s) := execEdge_of_live now hm rfl
  refine ⟨fun _ => rfl, fun h => ?_, fun h => ?_, fun h => ?_, fun h => ?_⟩
  · rw [h₀, edgeHandler_of_discarded ((edgeAccepted_eq_false_iff _ _).mpr h)]
  · rw [h₀, edgeHandler_of_accepted ((edgeAccepted_iff _ _).mpr h)]
    rfl
  · rw [h₁, edgeHandler_of_discarded ((edgeAccepted_eq_false_iff _ _).mpr h)]
  · rw [h₁, edgeHandler_of_accepted ((edgeAccepted_iff _ _).mpr h)]
    rfl

/-- Settles O38: out of Halted `TAKE` is `takeEvent`, which writes the flag and the answer alone. -/
theorem takeAnswersAndClears : Obligations.TakeAnswersAndClears := by
  intro s hm
  refine ⟨fun _ => rfl, ?_, ?_⟩
  · rw [execTake_of_live hm (n := .in0) rfl, takeEvent_frame, takeEvent_takeOut]
    rfl
  · rw [execTake_of_live hm (n := .in1) rfl, takeEvent_frame, takeEvent_takeOut]
    rfl

/-! ### The distance between accepted edges -/

/-- Only an accepted edge of its own input moves `last_accepted` (R161, R162). -/
theorem lastAccepted_of_exec_next {n : InputId} {i : Instr} {s t : State} (hx : exec i s = .next t)
    (hnone : acceptsEdge n i s = false) : (t.gate n).lastAccepted = (s.gate n).lastAccepted := by
  cases i with
  | init | setpx | clear | flush | digit | drawch | drawstr | render => rw [gate_of_exec_other hx nofun nofun]
  | take k =>
    obtain ⟨-, m, -, rfl⟩ := execTake_next hx
    by_cases h : n = m
    · rw [h, takeEvent_gate, Gate.onTake_lastAccepted]
    · rw [takeEvent_gate_ne h]
  | edge k now =>
    obtain ⟨-, m, hk, rfl⟩ := execEdge_next hx
    by_cases h : n = m
    · subst h
      rw [edgeHandler_of_discarded ((acceptsEdge_of_input hk now s).symm.trans hnone)]
    · rw [edgeHandler_gate_ne h]

/-- The accepted edges of a list are its first instruction's and those of the rest after it. -/
theorem acceptedEdges_cons_of_next {i : Instr} {s u : State} (h : exec i s = .next u) (n : InputId) (ops : List Instr) :
    acceptedEdges n (i :: ops) s = (acceptsEdge n i s).toNat + acceptedEdges n ops u := by
  simp only [acceptedEdges, h]

/-- Operations in which input `n` accepts no edge leave its `last_accepted` (R161). -/
theorem lastAccepted_of_execAll_next {n : InputId} : ∀ {ops : List Instr} {s t : State}, execAll ops s = .next t →
    acceptedEdges n ops s = 0 → (t.gate n).lastAccepted = (s.gate n).lastAccepted := by
  intro ops
  induction ops with
  | nil => intro s t h _; cases h; rfl
  | cons i ops ih =>
    intro s t h hnone
    obtain ⟨u, hx, hrest⟩ := execAll_cons_next h
    rw [acceptedEdges_cons_of_next hx] at hnone
    obtain ⟨hfirst, hnone⟩ := Nat.add_eq_zero_iff.mp hnone
    rw [ih hrest hnone, lastAccepted_of_exec_next hx (Bool.toNat_eq_zero.mp hfirst)]

/-- Settles O42: the accepted edge leaves its tick in `last_accepted`, where the window test of the next one still finds it. -/
theorem consecutiveAcceptedEdgesAreAWindowApart : Obligations.ConsecutiveAcceptedEdgesAreAWindowApart := by
  intro k n a b between s t t' hk hacc hx hbetween hnone
  rw [acceptsEdge_of_input hk] at hacc
  have ht : (t.gate n).lastAccepted = a := by
    rw [execEdge_of_live a (live_of_exec_next hx) hk, edgeHandler_of_accepted hacc] at hx
    rw [← Host.Outcome.next.inj hx, State.gate_setGate_same]
  have ht' : (t'.gate n).lastAccepted = a := (lastAccepted_of_execAll_next hbetween hnone).trans ht
  rw [acceptsEdge_of_input hk, ht', edgeAccepted_iff]

/-! ### Events are conserved -/

/-- The `TAKE`s of a list are its first instruction's and those of the rest. -/
theorem takeOperands_cons (i : Instr) (ops : List Instr) : takeOperands (i :: ops) = takeOperands [i] ++ takeOperands ops :=
  List.filterMap_append (l := [i])

/-- True answers are counted piece by piece, each answer with its own `TAKE`. -/
theorem trueAnswers_append (n : InputId) {ks ks' : List Byte} {as as' : List Bool} (h : as.length = ks.length) :
    trueAnswers n (ks ++ ks') (as ++ as') = trueAnswers n ks as + trueAnswers n ks' as' := by
  rw [trueAnswers, List.zip_append h.symm, List.countP_append]
  rfl

/-- One answer counts for the input it was asked of, and only if it is true. -/
theorem trueAnswers_singleton {k : Byte} {m : InputId} (hk : inputOf k = some m) (n : InputId) (b : Bool) :
    trueAnswers n [k] [b] = if n = m then b.toNat else 0 := by
  by_cases h : n = m
  · subst h; cases b <;> simp [trueAnswers, hk]
  · simp [trueAnswers, hk, h, Ne.symm h]

/-- No operation but `TAKE` answers (R12, R162). -/
theorem takeOut_of_exec_next {i : Instr} {s t : State} (hx : exec i s = .next t) (hi : ∀ k, i ≠ .take k) :
    t.takeOut = s.takeOut := by
  have howned := eachOperationWritesOnlyWhatItOwns i s t hx
  cases i with
  | init | setpx | clear | flush | digit | drawch | drawstr | render =>
    dsimp only at howned
    rw [howned]
  | take k => exact absurd rfl (hi k)
  | edge k now =>
    obtain ⟨n, g, -, ht⟩ := howned
    rw [ht, State.setGate_takeOut]

/-- What was answered is each `TAKE`'s answer, and for each input the true ones with the event pending at the end number at most the
accepted edges with the event pending at the start (R165 (a), (c)). -/
def EventsConserved (ops : List Instr) (s t : State) : Prop :=
  ∃ answers, t.takeOut = s.takeOut ++ answers ∧ answers.length = (takeOperands ops).length ∧
    ∀ n, trueAnswers n (takeOperands ops) answers + (t.gate n).pending.toNat ≤ acceptedEdges n ops s + (s.gate n).pending.toNat

/-- A take hands the pending event over as its answer (R162). -/
theorem eventsConserved_take {k : Byte} {s t : State} (hx : exec (.take k) s = .next t) : EventsConserved [.take k] s t := by
  obtain ⟨-, m, hk, rfl⟩ := execTake_next hx
  refine ⟨[(s.gate m).pending], takeEvent_takeOut m s, rfl, fun n => ?_⟩
  rw [show takeOperands [.take k] = [k] from rfl, trueAnswers_singleton hk]
  by_cases h : n = m
  · rw [if_pos h, h, takeEvent_gate, Gate.onTake_pending]
    exact Nat.le_add_left _ _
  · rw [if_neg h, takeEvent_gate_ne h, Nat.zero_add]
    exact Nat.le_add_left _ _

/-- An edge leaves an event pending that it brought itself or that was pending before (R161). -/
theorem pending_edgeHandler_le {k : Byte} {m : InputId} (hk : inputOf k = some m) (n : InputId) (now : Tick) (s : State) :
    ((edgeHandler m now s).gate n).pending.toNat ≤ (acceptsEdge n (.edge k now) s).toNat + (s.gate n).pending.toNat := by
  by_cases h : n = m
  · subst h
    rw [edgeHandler_pending, acceptsEdge_of_input hk]
    cases edgeAccepted now (s.gate n).lastAccepted
    · exact Nat.le_add_left _ _
    · exact Nat.le_add_right _ _
  · rw [edgeHandler_gate_ne h]
    exact Nat.le_add_left _ _

/-- No single operation duplicates an event: a take moves one to the answers, an accepted edge brings one, nothing else touches a flag
(R20, R161, R162). -/
theorem eventsConserved_of_exec_next {i : Instr} {s t : State} (hx : exec i s = .next t) : EventsConserved [i] s t := by
  cases i with
  | take k => exact eventsConserved_take hx
  | edge k now =>
    refine ⟨[], (takeOut_of_exec_next hx nofun).trans (List.append_nil _).symm, rfl, fun n => ?_⟩
    rw [acceptedEdges_cons_of_next hx]
    obtain ⟨-, m, hk, rfl⟩ := execEdge_next hx
    exact (Nat.zero_add _).trans_le (pending_edgeHandler_le hk n now s)
  | init | setpx | clear | flush | digit | drawch | drawstr | render =>
    refine ⟨[], (takeOut_of_exec_next hx nofun).trans (List.append_nil _).symm, rfl, fun n => ?_⟩
    rw [gate_of_exec_other hx nofun nofun]
    exact (Nat.zero_add _).trans_le (Nat.le_add_left _ _)

/-- Conservation goes on from one operation to those behind it. -/
theorem eventsConserved_cons {i : Instr} {ops : List Instr} {s u t : State} (hx : exec i s = .next u)
    (hfirst : EventsConserved [i] s u) (hrest : EventsConserved ops u t) : EventsConserved (i :: ops) s t := by
  obtain ⟨as, hout, hlen, hle⟩ := hfirst
  obtain ⟨as', hout', hlen', hle'⟩ := hrest
  refine ⟨as ++ as', ?_, ?_, fun n => ?_⟩
  · rw [hout', hout, List.append_assoc]
  · rw [takeOperands_cons, List.length_append, List.length_append, hlen, hlen']
  · have h := hle n
    have h' := hle' n
    have hone : acceptedEdges n [i] s = (acceptsEdge n i s).toNat := acceptedEdges_cons_of_next hx n []
    rw [takeOperands_cons, trueAnswers_append n hlen, acceptedEdges_cons_of_next hx]
    omega

/-- Settles O43, by induction on the list: no operation duplicates an event, and conservation composes. -/
theorem eventsAreNeverDuplicated : Obligations.EventsAreNeverDuplicated := by
  intro ops
  induction ops with
  | nil => intro s t h; cases h; exact ⟨[], (List.append_nil _).symm, rfl, fun n => le_refl _⟩
  | cons i ops ih =>
    intro s t h
    obtain ⟨u, hx, hrest⟩ := execAll_cons_next h
    exact eventsConserved_cons hx (eventsConserved_of_exec_next hx) (ih u t hrest)

end Sys2Proof.Machine

/-! PROOFS. The Halted state: no operation and, without an `rst`, nothing of the environment has a step there (R181). -/

namespace Sys2Proof.Machine

/-- An environment that asserts no `rst` leaves Halted nothing to handle (R181, log 12). -/
theorem fromReset_eq_nil {env : List Scheduled} (hno : ∀ e ∈ env, e.input ≠ .rst) : fromReset env = [] := by
  rcases fromReset_spec env with hnil | ⟨r, -, -, hrst, hmem⟩
  · exact hnil
  · exact absurd hrst (hno r hmem)

/-- In Halted a step that has no `rst` to handle faults (R181). -/
theorem step_of_halted_stuck {s : State} (hm : s.ledMode = .halted) (hf : fromReset s.env = []) :
    step s = .fault .halted := by
  have hw : nextWork s = .stuck := by simp [nextWork, hm, haltedWork, hf]
  unfold step
  rw [hw]

/-- Settles O12: every operation is guarded by the mode, and only an `rst` is work for a block in Halted. -/
theorem haltedHasNoStep : Obligations.HaltedHasNoStep := by
  intro s hm
  exact ⟨fun i => exec_of_halted i hm, fun hno => step_of_halted_stuck hm (fromReset_eq_nil hno)⟩

end Sys2Proof.Machine

/-! PROOFS. The waiting block: with no record and no input of the environment presented there is no work (R210, log 2). -/

namespace Sys2Proof.Machine

/-- Out of Halted the work of a step is that of the live block (R23, R181). -/
theorem nextWork_of_live {s : State} (hm : s.ledMode ≠ .halted) : nextWork s = liveWork s := by
  unfold nextWork
  cases hmode : s.ledMode with
  | uninit => rfl
  | ready => rfl
  | halted => exact absurd hmode hm

/-- A live block with an empty stream and no input of the environment has nothing to do (R210). -/
theorem liveWork_of_nothing_presented {s : State} (hs : s.stream = []) (he : s.env = []) : liveWork s = .idle := by
  simp [liveWork, hs, he]

/-- Settles O11: the live block has no work, and a step without work changes nothing. -/
theorem blockWaitsForARecord : Obligations.BlockWaitsForARecord := by
  intro s hm hs he
  have hw : nextWork s = .idle := (nextWork_of_live hm).trans (liveWork_of_nothing_presented hs he)
  unfold step
  rw [hw]

end Sys2Proof.Machine
